-- ==== Sys2Proof/Word.lean ====
section
/-! DEFINITION. The two word types of the soma_g CPU core (spec/00_scope.md R4, R5): 8-bit bytes and registers,
16-bit program counter, stack pointer and addresses. -/

namespace Sys2Proof

/-- A byte: 8 bits, bit 0 least significant (R5). -/
abbrev Byte := BitVec 8

/-- A 16-bit value: `pc`, `sp`, a register pair, an absolute address (R5, R7). -/
abbrev Word := BitVec 16

end Sys2Proof
end

