-- ==== Sys2Proof/Config.lean ====
section
/-! DEFINITION. The implementation parameters of spec/00_scope.md R4 as plain data. `MEM_SIZE`, `IMAGE`, `STACK_SIZE`
and `START_PC` are arguments of construction (`Params`); the opcode map, the flag masks and the restart vector
(`Implementation`) are arguments of the machine (Machine/Parametric.lean). The decided default masks, opcode bytes and
restart vector stand in Machine/Flags.lean, Decode.lean and Machine/Control.lean. -/

namespace Sys2Proof

/-- The parameters `MASK_Z`, `MASK_N`, `MASK_H`, `MASK_C` (R4, R26): where the four flags stand in `F`. -/
structure FlagLayout where
  maskZ : Byte
  maskN : Byte
  maskH : Byte
  maskC : Byte
  deriving DecidableEq, Repr

/-- The parameter `OPC` (R4, R84): the opcode byte of each of the thirteen instructions. -/
structure OpcodeMap where
  nop    : Byte
  jpNn   : Byte
  incB   : Byte
  ldABc  : Byte
  ldHlNn : Byte
  callNn : Byte
  rst38  : Byte
  orB    : Byte
  subN   : Byte
  djnzE  : Byte
  addAHl : Byte
  addHlHl : Byte
  retPe  : Byte
  deriving DecidableEq, Repr

/-- The parameters of R4 that are fixed for a machine and are no state of it (R20): `OPC`, the four masks, `RST_VECTOR`. -/
structure Implementation where
  opcodes   : OpcodeMap
  flags     : FlagLayout
  rstVector : Word
  deriving DecidableEq, Repr

/-- The inputs of "Construct initial state" (R4, R111, R210): `MEM_SIZE`, `IMAGE`, `STACK_SIZE`, `START_PC`.
They are unbounded numbers here because R197 has construction refuse values outside the ranges of R4. -/
structure Params where
  memSize   : Nat
  image     : List Byte
  stackSize : Nat
  startPc   : Nat
  deriving DecidableEq, Repr

namespace Config

/-- `MEM_SIZE`'s decided default (R4, decision D14). -/
def memSize : Nat := 65536

/-- DESIGN CHOICE (log entry 3): R4 gives `STACK_SIZE` no default. 16 is what spec/95_test_vectors.md uses "unless
stated". Unsafe: no statement rests on this number. -/
def stackSize : Nat := 16

/-- DESIGN CHOICE (log entry 2): R4 gives `START_PC` no default. Unsafe: no statement rests on this number. -/
def startPc : Nat := 0

/-- The parameters behind `State.reset`: no image is placed (log entry 2). -/
def params : Params := { memSize := memSize, image := [], stackSize := stackSize, startPc := startPc }

end Config

end Sys2Proof
end

