-- ==== Sys2Proof/Machine/State.lean ====
section
/-! DEFINITION. Everything the spec gives the machine (spec/10_state.md R20): the register file, Memory, the Stack and
the run state; the halt causes (spec/60_exceptions.md R184); the state after reset (R36). -/

namespace Sys2Proof.Machine

/-- The 8-bit registers of R21 and the flag byte, as R7 lists them. -/
inductive Reg where
  | a | b | c | d | e | h | l | f
  deriving DecidableEq, Repr

/-- The register pairs of R22. `de` is named by the spec and used by no instruction (decision D28). -/
inductive Pair where
  | bc | de | hl
  deriving DecidableEq, Repr

/-- The four flags of `F` (R26): zero, negate, half-carry, carry. -/
inductive Flag where
  | z | n | h | c
  deriving DecidableEq, Repr

/-- The halt causes: the four-constructor type of R184, with the recorded fields of R180 to R183. Raising one makes the
run state `halted` of it (R9, R187), which is a next state; `step` answers it as a fault of a machine that is already
halted, which has no step (R106). -/
inductive Fault where
  /-- Raised by the step at decode: `value` is the unknown opcode byte, `addr` its address (R180). The conventional end
  of a program (R107). Safe: the spec gives this outcome. -/
  | unknownOpcode (value : Byte) (addr : Word)
  /-- Raised by a Memory access (fetch, operand read, data read) outside `[0, MEM_SIZE)` (R181). Safe: the spec gives
  this outcome. -/
  | memOutOfBounds (addr : Int)
  /-- Raised by a Stack access outside `[0, STACK_SIZE)` and by a push with `sp = 0` (R182). Safe: the spec gives this
  outcome. -/
  | stackOutOfBounds (idx : Int)
  /-- Raised when a sequential next `pc`, a branch target or a return address exceeds 0xFFFF (R183). Safe: the spec
  gives this outcome (decision D16). -/
  | pcOutOfRange (t : Nat)
  deriving DecidableEq, Repr

/-- Why something has no meaning in the model. -/
inductive Refusal where
  /-- An instruction with no meaning yet, by its mnemonic in spec/opcode_table.json. Raised by `exec`'s refused arms;
  there are none. Safe: the model stops. -/
  | notModelled (mnemonic : String)
  /-- Construction parameters outside the ranges of R4: there is no machine (R197). Raised by `State.construct` only,
  never by a step. Safe: the spec says a model refuses. -/
  | malformedParameters
  deriving DecidableEq, Repr

/-- The run state (R33). -/
inductive RunState where
  | running
  | halted (reason : Fault)
  deriving DecidableEq, Repr

/-- A byte buffer of fixed length: the type of Memory (R31) and of the Stack (R32). `cells` lists the bytes that are
not zero by rising address; an address below `size` that is not listed reads as 0x00, since both buffers are
zero-initialized (R36). `Memory.wf` states the form. -/
structure Memory where
  size  : Nat
  cells : List Host.Cell
  deriving DecidableEq, Repr

/-- The architectural state (R20). -/
structure State where
  /-- General registers (R21). -/
  a : Byte
  b : Byte
  c : Byte
  d : Byte
  e : Byte
  h : Byte
  l : Byte
  /-- The flag byte (R26). -/
  f : Byte
  /-- The program counter (R24). -/
  pc : Word
  /-- The stack pointer, an index into the Stack (R25). -/
  sp : Word
  /-- Memory: program and data (R31). Its `size` is `MEM_SIZE`. -/
  mem : Memory
  /-- The Stack, an address space of its own (R32). Its `size` is `STACK_SIZE`. -/
  stack : Memory
  /-- The run state (R33). -/
  run : RunState
  deriving DecidableEq, Repr

/-- What a meaning answers. -/
abbrev Result := Host.Outcome State Fault Refusal

/-- The state right after reset (R36, R210) for the parameters `Config.params`: registers and flags zero, `sp` at the
Stack's length, `pc` at `START_PC`, Memory and Stack zero, running. -/
def State.reset : State where
  a := 0#8
  b := 0#8
  c := 0#8
  d := 0#8
  e := 0#8
  h := 0#8
  l := 0#8
  f := 0#8
  pc := BitVec.ofNat 16 Config.startPc
  sp := BitVec.ofNat 16 Config.stackSize
  mem := { size := Config.memSize, cells := [] }
  stack := { size := Config.stackSize, cells := [] }
  run := .running

end Sys2Proof.Machine
end

