-- ==== Sys2Proof/Machine/Memory.lean ====
section
/-! DEFINITION. Byte buffers (spec/10_state.md R31, R32): bounds, reading and writing one byte, the canonical form, and
placing an image (R210). -/

namespace Sys2Proof.Machine

/-- The bounds test of R50 to R53, on an unbounded integer address. -/
abbrev Memory.inBounds (m : Memory) (addr : Int) : Prop := 0 ≤ addr ∧ addr < (m.size : Int)

/-- What an address that is not listed reads as: buffers are zero-initialized (R36). -/
def unlistedByte : Byte := 0x00#8

/-- The byte a list of cells gives for an address. -/
def readCells (a : Nat) : List Host.Cell → Byte
  | [] => unlistedByte
  | (x, v) :: rest => if x = a then v else readCells a rest

/-- The cells with address `a` holding `v`: rising order is kept and the unlisted value is never listed. -/
def writeCells (a : Nat) (v : Byte) : List Host.Cell → List Host.Cell
  | [] => if v = unlistedByte then [] else [(a, v)]
  | (x, u) :: rest =>
    if a < x then (if v = unlistedByte then (x, u) :: rest else (a, v) :: (x, u) :: rest)
    else if a = x then (if v = unlistedByte then rest else (a, v) :: rest)
    else (x, u) :: writeCells a v rest

/-- The byte at an address. Only in-bounds addresses are ever accessed (`Ops`). -/
def Memory.get (m : Memory) (a : Nat) : Byte := readCells a m.cells

/-- The buffer with one byte replaced; an address outside the buffer changes nothing (no rule writes one: R51 and R53
raise first). The length never changes (R31). -/
def Memory.set (m : Memory) (a : Nat) (v : Byte) : Memory :=
  if a < m.size then { m with cells := writeCells a v m.cells } else m

/-- Cells from address `lo` up, strictly rising, below `size`, none equal to the unlisted value. -/
def cellsWf (size : Nat) : Nat → List Host.Cell → Bool
  | _, [] => true
  | lo, (x, v) :: rest => decide (lo ≤ x) && decide (x < size) && decide (v ≠ unlistedByte) && cellsWf size (x + 1) rest

/-- The canonical form of a buffer: equal buffers are equal data. -/
def Memory.wf (m : Memory) : Bool := cellsWf m.size 0 m.cells

/-- The cells of an image placed from address `a` upward. -/
def imageCells : Nat → List Byte → List Host.Cell
  | _, [] => []
  | a, v :: rest => if v = unlistedByte then imageCells (a + 1) rest else (a, v) :: imageCells (a + 1) rest

/-- A buffer of `size` bytes, zero but for an image copied to offset 0 (R210 steps 1 and 2). -/
def Memory.ofImage (size : Nat) (image : List Byte) : Memory := { size := size, cells := imageCells 0 image }

end Sys2Proof.Machine
end

