-- ==== Sys2Proof/Syntax.lean ====
section
/-! DEFINITION. The instruction set SG13 (spec/30_encoding.md R84): thirteen instructions, one constructor per row of
spec/opcode_table.json, in the table's order. Operand fields are those of R81 and R83. -/

namespace Sys2Proof

/-- One SG13 instruction with its operand bytes. Registers are implied by the opcode (R83), so only immediate operands
appear. -/
inductive Instr where
  /-- `NOP` (R120). -/
  | nop
  /-- `JP nn` (R121): absolute target. -/
  | jpNn (nn : Word)
  /-- `INC B` (R150). -/
  | incB
  /-- `LD A,(BC)` (R140): the two operand bytes are skipped, never read, and have no meaning (R83, R88); they are kept
  here so that an encoding loses no bit. -/
  | ldABc (x1 x2 : Byte)
  /-- `LD HL,nn` (R141): the byte for `H` and the byte for `L`. -/
  | ldHlNn (hh ll : Byte)
  /-- `CALL nn` (R122): absolute target. -/
  | callNn (nn : Word)
  /-- `RST 38H` (R123). -/
  | rst38
  /-- `OR B` (R151). -/
  | orB
  /-- `SUB n` (R152): unsigned immediate. -/
  | subN (n : Byte)
  /-- `DJNZ e` (R124): unsigned forward offset. -/
  | djnzE (e : Byte)
  /-- `ADD A,(HL)` (R153). -/
  | addAHl
  /-- `ADD HL,HL` (R170). -/
  | addHlHl
  /-- `RET PE` (R125): recognized placeholder. -/
  | retPe
  deriving DecidableEq, Repr

end Sys2Proof
end

