-- ==== Sys2Proof/WellFormed.lean ====
section
/-! DEFINITION. Which parameters and instructions are well formed. The parameter checks are the ranges and constraints
of spec/00_scope.md R4 (masks also R26, opcodes also R91), which R197 has construction enforce. -/

namespace Sys2Proof

/-- Every SG13 instruction is well formed: each operand field has exactly the width of its operand (R81), any operand
byte is legal (R83), and no instruction carries a register number or a condition. The check therefore refuses nothing;
it has one arm per constructor so that a new instruction has to answer it. -/
def Instr.wf : Instr → Bool
  | .nop => true
  | .jpNn _ => true
  | .incB => true
  | .ldABc _ _ => true
  | .ldHlNn _ _ => true
  | .callNn _ => true
  | .rst38 => true
  | .orB => true
  | .subN _ => true
  | .djnzE _ => true
  | .addAHl => true
  | .addHlHl => true
  | .retPe => true

/-- The masks of a layout in the order Z, N, H, C. -/
def FlagLayout.masks (L : FlagLayout) : List Byte := [L.maskZ, L.maskN, L.maskH, L.maskC]

/-- A one-bit mask of a byte (R4). -/
def isOneBitMask (m : Byte) : Bool := [0x01#8, 0x02#8, 0x04#8, 0x08#8, 0x10#8, 0x20#8, 0x40#8, 0x80#8].contains m

/-- "Four distinct one-bit masks of a byte" (R4, R26). -/
def FlagLayout.wf (L : FlagLayout) : Bool := L.masks.all isOneBitMask && decide L.masks.Nodup

/-- The opcode bytes of a map, in the order of R84. -/
def OpcodeMap.bytes (M : OpcodeMap) : List Byte :=
  [M.nop, M.jpNn, M.incB, M.ldABc, M.ldHlNn, M.callNn, M.rst38, M.orB, M.subN, M.djnzE, M.addAHl, M.addHlHl, M.retPe]

/-- "Injective map from the 13 mnemonics to byte values" (R4); "keys unique" (R91). -/
def OpcodeMap.wf (M : OpcodeMap) : Bool := decide M.bytes.Nodup

/-- The constraints of R4 on the parameters fixed for a machine; any 16-bit restart vector is legal. -/
def Implementation.wf (I : Implementation) : Bool := I.opcodes.wf && I.flags.wf

/-- The ranges of R4 that construction requires (R197): `MEM_SIZE` 1 to 65536, `STACK_SIZE` 0 to 65535, `START_PC` 0 to
65535, and an image no longer than Memory. -/
def Params.wf (p : Params) : Bool :=
  decide (1 ≤ p.memSize) && decide (p.memSize ≤ 65536) && decide (p.stackSize ≤ 65535) && decide (p.startPc ≤ 65535)
    && decide (p.image.length ≤ p.memSize)

end Sys2Proof
end

