-- ==== Sys2Proof/Machine/Construct.lean ====
section
/-! DEFINITION. The boundary operation "Construct initial state" (spec/70_reset_and_hazards.md R210 to R212,
spec/60_exceptions.md R197). -/

namespace Sys2Proof.Machine

/-- The state R210 builds from parameters, step by step. -/
def State.initial (p : Params) : State where
  a := 0#8
  b := 0#8
  c := 0#8
  d := 0#8
  e := 0#8
  h := 0#8
  l := 0#8
  f := 0#8
  pc := BitVec.ofNat 16 p.startPc
  sp := BitVec.ofNat 16 p.stackSize
  mem := Memory.ofImage p.memSize p.image
  stack := Memory.ofImage p.stackSize []
  run := .running

/-- Construction (R210): refused when the parameters are malformed (R197). It takes no earlier state, so a second reset
keeps nothing (R212). -/
def State.construct (p : Params) : Except Refusal State :=
  if p.wf then .ok (State.initial p) else .error .malformedParameters

end Sys2Proof.Machine
end

