-- ==== Sys2Proof/Decode.lean ====
section
/-! DEFINITION. Decoder and encoder of SG13 (spec/30_encoding.md), and the byte and word helpers of spec/00_scope.md
R5. The opcode map is an argument (`OPC`, R4); the machine uses `opcodes`, the decided default of R84. -/

namespace Sys2Proof

/-- `hi(w) = w[15:8]` (R5). -/
def hiByte (w : Word) : Byte := w.extractLsb' 8 8

/-- `lo(w) = w[7:0]` (R5). -/
def loByte (w : Word) : Byte := w.extractLsb' 0 8

/-- `{h, l}`, the 16-bit value `h * 256 + l`: high byte first (R5, R22). -/
def pairWord (h l : Byte) : Word := BitVec.ofNat 16 (h.toNat * 256 + l.toNat)

/-- The opcode bytes of R84: the parameter `OPC` at its decided default (decision D2, log entry 4). -/
def opcodes : OpcodeMap where
  nop := 0x00#8
  jpNn := 0xC3#8
  incB := 0x04#8
  ldABc := 0x0A#8
  ldHlNn := 0x21#8
  callNn := 0xCD#8
  rst38 := 0xFF#8
  orB := 0xB0#8
  subN := 0xD6#8
  djnzE := 0x10#8
  addAHl := 0x86#8
  addHlHl := 0x29#8
  retPe := 0xE8#8

/-- Why a byte string is no instruction. Only `unknownOpcode` can come out of a machine step (R104); the other two
belong to byte strings given to `decodeBytes` that end too early. -/
inductive Reject where
  | unknownOpcode (value : Byte)
  | noByte
  | truncated (value : Byte)
  deriving DecidableEq, Repr

/-- Decode an opcode byte `b0` with the two bytes that follow it (R84, R91): total and stateless. Bytes beyond the
instruction's length are ignored. Operands are formed as R83 says. -/
def decode (M : OpcodeMap) (b0 b1 b2 : Byte) : Except Reject Instr :=
  if b0 = M.nop then .ok .nop
  else if b0 = M.jpNn then .ok (.jpNn (pairWord b2 b1))
  else if b0 = M.incB then .ok .incB
  else if b0 = M.ldABc then .ok (.ldABc b1 b2)
  else if b0 = M.ldHlNn then .ok (.ldHlNn b1 b2)
  else if b0 = M.callNn then .ok (.callNn (pairWord b2 b1))
  else if b0 = M.rst38 then .ok .rst38
  else if b0 = M.orB then .ok .orB
  else if b0 = M.subN then .ok (.subN b1)
  else if b0 = M.djnzE then .ok (.djnzE b1)
  else if b0 = M.addAHl then .ok .addAHl
  else if b0 = M.addHlHl then .ok .addHlHl
  else if b0 = M.retPe then .ok .retPe
  else .error (.unknownOpcode b0)

/-- The length in bytes of each instruction (R80, R84). -/
def Instr.length : Instr → Nat
  | .nop => 1
  | .jpNn _ => 3
  | .incB => 1
  | .ldABc _ _ => 3
  | .ldHlNn _ _ => 3
  | .callNn _ => 3
  | .rst38 => 1
  | .orB => 1
  | .subN _ => 2
  | .djnzE _ => 2
  | .addAHl => 1
  | .addHlHl => 1
  | .retPe => 1

/-- The `i`th byte of a byte string, 0 beyond its end. -/
def byteAt (bs : List Byte) (i : Nat) : Byte := bs.getD i 0#8

/-- Decode the instruction at the front of a byte string and give back the bytes after it. Total on any bytes,
rejecting by name. -/
def decodeBytes (M : OpcodeMap) (bs : List Byte) : Except Reject (Instr × List Byte) :=
  match bs with
  | [] => .error .noByte
  | b0 :: rest =>
    match decode M b0 (byteAt rest 0) (byteAt rest 1) with
    | .error r => .error r
    | .ok i => if (b0 :: rest).length < i.length then .error (.truncated b0) else .ok (i, (b0 :: rest).drop i.length)

/-- The bytes of an instruction, lowest address first, from the formats of R81 and the forms of R89: `JP` and `CALL`
low byte first, `LD HL,nn` high byte first. -/
def encode (M : OpcodeMap) : Instr → List Byte
  | .nop => [M.nop]
  | .jpNn nn => [M.jpNn, loByte nn, hiByte nn]
  | .incB => [M.incB]
  | .ldABc x1 x2 => [M.ldABc, x1, x2]
  | .ldHlNn hh ll => [M.ldHlNn, hh, ll]
  | .callNn nn => [M.callNn, loByte nn, hiByte nn]
  | .rst38 => [M.rst38]
  | .orB => [M.orB]
  | .subN n => [M.subN, n]
  | .djnzE e => [M.djnzE, e]
  | .addAHl => [M.addAHl]
  | .addHlHl => [M.addHlHl]
  | .retPe => [M.retPe]

/-- Byte `i` of a table word: bit 0 of the word is the least significant bit of the first byte, the second byte is bits
15..8, the third bits 23..16; every bit from `nbits` up is 0. -/
def tableByte (nbits w i : Nat) : Byte := BitVec.ofNat 8 (w % 2 ^ nbits / 2 ^ (8 * i))

/-- The instruction this decoder reads from a word numbered as spec/opcode_table.json numbers it. -/
def decodeTableWord (nbits w : Nat) : Option Instr :=
  match decode opcodes (tableByte nbits w 0) (tableByte nbits w 1) (tableByte nbits w 2) with
  | .ok i => some i
  | .error _ => none

end Sys2Proof
end

