-- ==== Sys2Proof/Machine/Ops.lean ====
section
/-! DEFINITION. The named operations over registers, Memory and the Stack. Each operation that can raise takes `k`, the
rest of the instruction's pseudocode, and drops it when it raises (spec/00_scope.md R9). -/

namespace Sys2Proof.Machine

/-! ### Registers (R7, R21, R22) -/

/-- `x[r]`. -/
def State.reg (s : State) : Reg → Byte
  | .a => s.a
  | .b => s.b
  | .c => s.c
  | .d => s.d
  | .e => s.e
  | .h => s.h
  | .l => s.l
  | .f => s.f

/-- `x[r] <- v`. -/
def State.setReg (s : State) (r : Reg) (v : Byte) : State :=
  match r with
  | .a => { s with a := v }
  | .b => { s with b := v }
  | .c => { s with c := v }
  | .d => { s with d := v }
  | .e => { s with e := v }
  | .h => { s with h := v }
  | .l => { s with l := v }
  | .f => { s with f := v }

/-- `rp[p]`: a pair is a view of its two registers, high register first (R22). -/
def State.pair (s : State) : Pair → Word
  | .bc => pairWord s.b s.c
  | .de => pairWord s.d s.e
  | .hl => pairWord s.h s.l

/-- `rp[p] <- w`: both halves are written, high byte to the first register (R7, R22). -/
def State.setPair (s : State) (p : Pair) (w : Word) : State :=
  match p with
  | .bc => (s.setReg .b (hiByte w)).setReg .c (loByte w)
  | .de => (s.setReg .d (hiByte w)).setReg .e (loByte w)
  | .hl => (s.setReg .h (hiByte w)).setReg .l (loByte w)

/-- `pc <- w` (R7). -/
def State.setPc (s : State) (w : Word) : State := { s with pc := w }

/-- `sp <- w` (R7). -/
def State.setSp (s : State) (w : Word) : State := { s with sp := w }

/-! ### Raising a condition (R9, R187 to R190) -/

/-- `raise K(info)`: the run state becomes `Halted(K(info))` and the rest of the instruction is abandoned (R9). Nothing
is saved, no mode changes, nothing is pushed and control goes nowhere (R187); what the instruction had already written
stays (R188, log entry 5). There is no return from it (R189), so no operation stands beside this one. -/
def raise (f : Fault) (s : State) : Result := .next { s with run := .halted f }

/-! ### The program counter (R10, R24) -/

/-- `AdvancePc(n)`: no wrap; past 0xFFFF it raises `PcOutOfRange` (R10). -/
def advancePc (n : Nat) (s : State) : Result :=
  if s.pc.toNat + n > 0xFFFF then raise (.pcOutOfRange (s.pc.toNat + n)) s
  else .next (s.setPc (BitVec.ofNat 16 (s.pc.toNat + n)))

/-- A control transfer `pc <- target` to a 16-bit target: the loop increment is suppressed and the target is not
checked (R10, R103, R126). -/
def jump (target : Word) (s : State) : Result := .next (s.setPc target)

/-- The return address `pc + n` of a call, which must fit 16 bits (R122, R123, R183). -/
def returnAddress (n : Nat) (s : State) (k : Word → Result) : Result :=
  if s.pc.toNat + n > 0xFFFF then raise (.pcOutOfRange (s.pc.toNat + n)) s
  else k (BitVec.ofNat 16 (s.pc.toNat + n))

/-! ### Memory (R50, R51) -/

/-- The bounds check that a Memory access at `addr` makes (R50, R51). -/
def memAccess (addr : Int) (s : State) (k : Result) : Result :=
  if s.mem.inBounds addr then k else raise (.memOutOfBounds addr) s

/-- `MemRead(addr, 1)` (R50). -/
def memRead (addr : Int) (s : State) (k : Byte → Result) : Result :=
  memAccess addr s (k (s.mem.get addr.toNat))

/-- `MemWrite(addr, 1, v)` (R51). Defined by the spec and used by no instruction (R69, decision D27). -/
def memWrite (addr : Int) (v : Byte) (s : State) (k : State → Result) : Result :=
  memAccess addr s (k { s with mem := s.mem.set addr.toNat v })

/-! ### The Stack (R52, R53, R57 to R59) -/

/-- The bounds check that a Stack access at `idx` makes (R52, R53). -/
def stackAccess (idx : Int) (s : State) (k : Result) : Result :=
  if s.stack.inBounds idx then k else raise (.stackOutOfBounds idx) s

/-- `StackRead(idx, 1)` (R52). -/
def stackRead (idx : Int) (s : State) (k : Byte → Result) : Result :=
  stackAccess idx s (k (s.stack.get idx.toNat))

/-- `StackWrite(idx, 1, v)` (R53). -/
def stackWrite (idx : Int) (v : Byte) (s : State) (k : State → Result) : Result :=
  stackAccess idx s (k { s with stack := s.stack.set idx.toNat v })

/-- `Push8(v)` (R57): pre-decrement, then write; with `sp = 0` nothing changes but the run state. -/
def push8 (v : Byte) (s : State) (k : State → Result) : Result :=
  let t : Int := (s.sp.toNat : Int) - 1
  if t < 0 then raise (.stackOutOfBounds t) s
  else stackWrite t v (s.setSp (BitVec.ofInt 16 t)) k

/-- `Push16(w)` (R58): high byte first. -/
def push16 (w : Word) (s : State) (k : State → Result) : Result :=
  push8 (hiByte w) s fun s => push8 (loByte w) s k

/-- `Pop8()` (R59): read, then increment. Used by no instruction. A pop that reads index 65535 would need an `sp` of
65536; `STACK_SIZE` is at most 65535 (R4), so the read raises first. -/
def pop8 (s : State) (k : Byte → State → Result) : Result :=
  stackRead s.sp.toNat s fun v => k v (s.setSp (BitVec.ofNat 16 (s.sp.toNat + 1)))

/-- `Pop16()` (R59): low byte first, the inverse of `Push16`. Used by no instruction. -/
def pop16 (s : State) (k : Word → State → Result) : Result :=
  pop8 s fun l s => pop8 s fun h s => k (pairWord h l) s

end Sys2Proof.Machine
end

