-- ==== Sys2Proof/Machine/Flags.lean ====
section
/-! DEFINITION. The flag accessors (spec/10_state.md R26 to R30) and the ALU functions that derive flags
(spec/43_alu8.md R154 to R157, spec/44_alu16.md R171). The masks are an argument (R4); the machine at the decided defaults uses `flagLayout`. -/

namespace Sys2Proof.Machine

/-- `MASK_Z`, `MASK_N`, `MASK_H`, `MASK_C` at their decided defaults (R26, decision D5, log entry 4). -/
def flagLayout : FlagLayout where
  maskZ := 0x80#8
  maskN := 0x40#8
  maskH := 0x20#8
  maskC := 0x10#8

/-- `MASK_k` of a layout. -/
def maskOf (L : FlagLayout) : Flag → Byte
  | .z => L.maskZ
  | .n => L.maskN
  | .h => L.maskH
  | .c => L.maskC

/-- The bits of `F` that hold no flag (R27). -/
def unusedBits (L : FlagLayout) : Byte := ~~~(L.maskZ ||| L.maskN ||| L.maskH ||| L.maskC)

/-- `get_flag(k)` on a flag byte (R28). -/
def getFlagBit (L : FlagLayout) (k : Flag) (f : Byte) : Bool := decide (f &&& maskOf L k ≠ 0#8)

/-- `set_flag(k, b)` on a flag byte: OR in the mask, or AND out its complement (R28). -/
def setFlagBit (L : FlagLayout) (k : Flag) (b : Bool) (f : Byte) : Byte :=
  if b then f ||| maskOf L k else f &&& ~~~(maskOf L k)

/-- `flag[k]` (R7) under a layout. -/
def State.flagBy (L : FlagLayout) (s : State) (k : Flag) : Bool := getFlagBit L k (s.reg .f)

/-- `flag[k] <- b` (R7) under a layout: changes no other bit of `F` and nothing else. -/
def State.setFlagBy (L : FlagLayout) (s : State) (k : Flag) (b : Bool) : State :=
  s.setReg .f (setFlagBit L k b (s.reg .f))

/-- `flag[k]` at the decided masks. -/
def State.flag (s : State) (k : Flag) : Bool := s.flagBy flagLayout k

/-- What the 8-bit adder and subtracter return: `(r, z, h, c)` (R155, R156). -/
structure Alu8 where
  r : Byte
  z : Bool
  h : Bool
  c : Bool
  deriving DecidableEq, Repr

/-- What the doubler returns: `(r, z, h, c)` (R171). -/
structure Alu16 where
  r : Word
  z : Bool
  h : Bool
  c : Bool
  deriving DecidableEq, Repr

/-- `v & 0xF` as a number (R155, R156). -/
def lowNibble (v : Byte) : Nat := (v &&& 0x0F#8).toNat

/-- `Inc8(v) = (v + 1) mod 256` (R154). No flag output. -/
def inc8 (v : Byte) : Byte := BitVec.ofNat 8 (v.toNat + 1)

/-- `(v - 1) mod 256`, the decrement of `DJNZ` (R124). No flag output. -/
def dec8 (v : Byte) : Byte := BitVec.ofInt 8 ((v.toNat : Int) - 1)

/-- `Sub8(a, n)` (R155). -/
def sub8 (a n : Byte) : Alu8 :=
  let r : Byte := BitVec.ofInt 8 ((a.toNat : Int) - (n.toNat : Int))
  { r := r, z := decide (r = 0#8), h := decide (lowNibble a < lowNibble n), c := decide (a.toNat < n.toNat) }

/-- `Add8(a, m)` (R156). -/
def add8 (a m : Byte) : Alu8 :=
  let r : Byte := BitVec.ofNat 8 (a.toNat + m.toNat)
  { r := r, z := decide (r = 0#8), h := decide (lowNibble a + lowNibble m > 0xF), c := decide (a.toNat + m.toNat > 0xFF) }

/-- The bitwise OR of the ALU (R151, R157). No flag output. -/
def or8 (a b : Byte) : Byte := a ||| b

/-- `Dbl16(v)` (R171): half-carry is the carry out of bit 11 (decision D11). -/
def dbl16 (v : Word) : Alu16 :=
  let r : Word := BitVec.ofNat 16 (2 * v.toNat)
  { r := r, z := decide (r = 0#16), h := decide (2 * (v &&& 0x0FFF#16).toNat > 0x0FFF), c := decide (2 * v.toNat > 0xFFFF) }

end Sys2Proof.Machine
end

