-- ==== Sys2Proof/Machine/Alu16.lean ====
section
/-! DEFINITION. The 16-bit ALU instruction (spec/44_alu16.md R170). -/

namespace Sys2Proof.Machine

/-- The write of a 16-bit result to `HL` and of Z, H and C to `F`; N is not written (R170, decision D12). -/
def State.writeAlu16 (L : FlagLayout) (s : State) (x : Alu16) : State :=
  (((s.setPair .hl x.r).setFlagBy L .z x.z).setFlagBy L .h x.h).setFlagBy L .c x.c

/-- The doubling of `HL` under a flag layout (R170, R4). -/
def doubleHl (L : FlagLayout) (s : State) : Result := advancePc 1 (s.writeAlu16 L (dbl16 (s.pair .hl)))

/-- `ADD HL,HL` (R170) at the decided masks (log entry 4). -/
def execAddHlHl (s : State) : Result := doubleHl flagLayout s

end Sys2Proof.Machine
end

