-- ==== Sys2Proof/Machine/Operands.lean ====
section
/-! DEFINITION. The operand forms of SG13 (spec/20_memory.md R54 to R56, spec/30_encoding.md R81, R83). The decoder has
formed the operand value from the bytes after the opcode; the helpers here make the Memory accesses the rules give the
instruction, in their order, and raise where the rules raise (log entry 6). -/

namespace Sys2Proof.Machine

/-- The access to the operand byte at `pc + i`, where `pc` addresses the opcode (R54, R55). -/
def operandAccess (i : Nat) (s : State) (k : Result) : Result := memAccess ((s.pc.toNat : Int) + i) s k

/-- `Imm8()` (R54): one access at `pc + 1`; `n` is the byte decoded there. -/
def imm8 (n : Byte) (s : State) (k : Byte → Result) : Result := operandAccess 1 s (k n)

/-- `Imm16LE()` (R55): accesses at `pc + 1` and then `pc + 2`, the first out of bounds raises; `nn` is the word decoded
there, low byte first. -/
def imm16LE (nn : Word) (s : State) (k : Word → Result) : Result := operandAccess 1 s (operandAccess 2 s (k nn))

/-- The two immediate bytes of `LD HL,nn` (R141, R61(b)): accesses at `pc + 1` and then `pc + 2`; `hh` and `ll` are the
bytes decoded there. -/
def immHiLo (hh ll : Byte) (s : State) (k : Byte → Byte → Result) : Result :=
  operandAccess 1 s (operandAccess 2 s (k hh ll))

/-- `PairRead(hi, lo)` (R56): the Memory byte addressed by a register pair. -/
def pairRead (p : Pair) (s : State) (k : Byte → Result) : Result := memRead ((s.pair p).toNat : Int) s k

end Sys2Proof.Machine
end

