-- ==== Sys2Proof/Machine/Alu8.lean ====
section
/-! DEFINITION. 8-bit ALU instructions (spec/43_alu8.md R150 to R153). -/

namespace Sys2Proof.Machine

/-- `INC B` (R150): no flag effect. -/
def execIncB (s : State) : Result := advancePc 1 (s.setReg .b (inc8 (s.reg .b)))

/-- `OR B` (R151): no flag effect. -/
def execOrB (s : State) : Result := advancePc 1 (s.setReg .a (or8 (s.reg .a) (s.reg .b)))

/-- The write of an 8-bit result and all four flags to `A` and `F` (R152, R153); `n` is the negate flag. -/
def State.writeAlu8 (L : FlagLayout) (s : State) (x : Alu8) (n : Bool) : State :=
  ((((s.setReg .a x.r).setFlagBy L .z x.z).setFlagBy L .n n).setFlagBy L .h x.h).setFlagBy L .c x.c

/-- The immediate subtraction under a flag layout (R152, R4). -/
def subImmediate (L : FlagLayout) (n : Byte) (s : State) : Result :=
  imm8 n s fun n =>
  advancePc 2 (s.writeAlu8 L (sub8 (s.reg .a) n) true)

/-- The pair-addressed accumulator add under a flag layout (R153, R4). -/
def addMemory (L : FlagLayout) (s : State) : Result :=
  pairRead .hl s fun m =>
  advancePc 1 (s.writeAlu8 L (add8 (s.reg .a) m) false)

/-- `SUB n` (R152) at the decided masks (log entry 4). -/
def execSubN (n : Byte) (s : State) : Result := subImmediate flagLayout n s

/-- `ADD A,(HL)` (R153) at the decided masks (log entry 4). -/
def execAddAHl (s : State) : Result := addMemory flagLayout s

end Sys2Proof.Machine
end

