-- ==== Sys2Proof/Machine/Control.lean ====
section
/-! DEFINITION. Control transfer instructions (spec/41_control_transfer.md R120 to R127). -/

namespace Sys2Proof.Machine

/-- `RST_VECTOR` at its decided default (R4, R123, decision D4, log entry 4). -/
def rstVector : Word := 0x0038#16

/-- `NOP` (R120). -/
def execNop (s : State) : Result := advancePc 1 s

/-- `JP nn` (R121). -/
def execJpNn (nn : Word) (s : State) : Result :=
  imm16LE nn s fun nn => jump nn s

/-- `CALL nn` (R122): range test, push, operand accesses, transfer, in that order (R186). -/
def execCallNn (nn : Word) (s : State) : Result :=
  returnAddress 3 s fun ret =>
  push16 ret s fun s =>
  imm16LE nn s fun nn =>
  jump nn s

/-- The fixed-vector call with the vector as an argument (R4, R123). -/
def restart (vector : Word) (s : State) : Result :=
  returnAddress 1 s fun ret =>
  push16 ret s fun s =>
  jump vector s

/-- `RST 38H` (R123) at the decided vector (log entry 4). -/
def execRst38 (s : State) : Result := restart rstVector s

/-- `DJNZ e` (R124): `B` is written first; the offset byte is accessed only when the branch is taken; the offset is
unsigned and counts from `pc + 2`. -/
def execDjnzE (e : Byte) (s : State) : Result :=
  let b := dec8 (s.reg .b)
  let s := s.setReg .b b
  if b ≠ 0#8 then imm8 e s fun e => advancePc (2 + e.toNat) s
  else advancePc 2 s

/-- `RET PE` (R125): the placeholder, which has no effect but the sequential advance (decision D13, log entry 7). -/
def execRetPe (s : State) : Result := advancePc 1 s

end Sys2Proof.Machine
end

