-- ==== Sys2Proof/Machine/Load.lean ====
section
/-! DEFINITION. Load instructions (spec/42_load.md R140, R141). -/

namespace Sys2Proof.Machine

/-- `LD A,(BC)` (R140): three bytes long, the two after the opcode are skipped without being read (log entry 8). -/
def execLdABc (s : State) : Result :=
  pairRead .bc s fun v =>
  advancePc 3 (s.setReg .a v)

/-- `LD HL,nn` (R141): both accesses precede both register writes. -/
def execLdHlNn (hh ll : Byte) (s : State) : Result :=
  immHiLo hh ll s fun hh ll =>
  advancePc 3 ((s.setReg .h hh).setReg .l ll)

end Sys2Proof.Machine
end

