-- ==== Sys2Proof/Machine/Dispatch.lean ====
section
/-! DEFINITION. One meaning per instruction (spec/30_encoding.md R84). -/

namespace Sys2Proof.Machine

def exec (i : Instr) (s : State) : Host.Outcome State Fault Refusal :=
  match i with
  | .nop => Sys2Proof.Machine.execNop s
  | .jpNn nn => Sys2Proof.Machine.execJpNn nn s
  | .incB => Sys2Proof.Machine.execIncB s
  -- the two skipped bytes have no meaning (R83, R140)
  | .ldABc _ _ => Sys2Proof.Machine.execLdABc s
  | .ldHlNn hh ll => Sys2Proof.Machine.execLdHlNn hh ll s
  | .callNn nn => Sys2Proof.Machine.execCallNn nn s
  | .rst38 => Sys2Proof.Machine.execRst38 s
  | .orB => Sys2Proof.Machine.execOrB s
  | .subN n => Sys2Proof.Machine.execSubN n s
  | .djnzE e => Sys2Proof.Machine.execDjnzE e s
  | .addAHl => Sys2Proof.Machine.execAddAHl s
  | .addHlHl => Sys2Proof.Machine.execAddHlHl s
  | .retPe => Sys2Proof.Machine.execRetPe s

end Sys2Proof.Machine
end

