-- ==== Sys2Proof/Machine/Fetch.lean ====
section
/-! DEFINITION. Fetching and decoding at the program counter (spec/40_execution_loop.md R100, R101, R104), and placing
an instruction where the machine fetches. -/

namespace Sys2Proof.Machine

/-- The byte `i` places after the opcode, as Memory holds it. This is no access of the machine: an address outside
Memory gives 0x00, a value no meaning uses, because the meaning's own operand access raises first or the rule does not
read the byte (log entry 6). -/
def State.codeByte (s : State) (i : Nat) : Byte := s.mem.get (s.pc.toNat + i)

/-- What the decoder gives for the bytes at `pc` under an opcode map. -/
def State.decodedBy (M : OpcodeMap) (s : State) : Except Reject Instr :=
  decode M (s.codeByte 0) (s.codeByte 1) (s.codeByte 2)

/-- What it gives at the decided opcode bytes. -/
def State.decoded (s : State) : Except Reject Instr := s.decodedBy opcodes

/-- The instruction the next step executes: the machine is running, `pc` is inside Memory and the byte there is an
opcode. -/
def State.fetched (s : State) : Option Instr :=
  if s.run = .running ∧ s.mem.inBounds s.pc.toNat then
    match s.decoded with
    | .ok i => some i
    | .error _ => none
  else none

/-- Fetch the opcode (R101), decode it under an opcode map, and go on with `k`; an unknown opcode raises and changes nothing else (R104). -/
def fetchDecode (M : OpcodeMap) (s : State) (k : Instr → Result) : Result :=
  memRead s.pc.toNat s fun op =>
  match decode M op (s.codeByte 1) (s.codeByte 2) with
  | .ok i => k i
  | .error _ => raise (.unknownOpcode op s.pc) s

/-- Memory with the three bytes of a table word stored from address `a` upward (bytes beyond Memory are dropped). -/
def placeWord (m : Memory) (a nbits w : Nat) : Memory :=
  ((m.set a (tableByte nbits w 0)).set (a + 1) (tableByte nbits w 1)).set (a + 2) (tableByte nbits w 2)

end Sys2Proof.Machine
end

