-- ==== Sys2Proof/Machine/Step.lean ====
section
/-! DEFINITION. One step (spec/40_execution_loop.md R100): fetch, decode, execute, or halt. -/

namespace Sys2Proof.Machine

/-- `Step(s)` (R100). A halted machine has no step (R106): the answer is its halt reason, as a fault. -/
def step (s : State) : Host.Outcome State Fault Refusal :=
  match s.run with
  | .running => fetchDecode opcodes s fun i => exec i s
  | .halted reason => .fault reason

/-- The state with the instruction of a table word stored at `pc`, running. -/
def State.withFetchWord (s : State) (nbits w : Nat) : State :=
  { s with mem := placeWord s.mem s.pc.toNat nbits w, run := .running }

end Sys2Proof.Machine
end

