-- ==== Sys2Proof/Machine/Parametric.lean ====
section
/-! DEFINITION. The machine with every parameter of spec/00_scope.md R4 an argument: `OPC`, `MASK_Z`, `MASK_N`, `MASK_H`,
`MASK_C` and `RST_VECTOR` (`Implementation`), beside the arguments of construction. `exec` and `step` are this machine
at the decided defaults (`exec_eq_execFor`, `step_eq_stepFor` in Laws/Exec.lean and Laws/Step.lean). -/

namespace Sys2Proof.Machine

/-- The decided defaults of R4 (decisions D2, D4, D5; log entry 4). -/
def decidedDefaults : Implementation where
  opcodes := opcodes
  flags := flagLayout
  rstVector := rstVector

/-- Execution of one instruction under given parameters. Only the four instructions that write a flag or jump to the
restart vector depend on them. -/
def execFor (I : Implementation) (i : Instr) (s : State) : Result :=
  match i with
  | .nop => execNop s
  | .jpNn nn => execJpNn nn s
  | .incB => execIncB s
  | .ldABc _ _ => execLdABc s
  | .ldHlNn hh ll => execLdHlNn hh ll s
  | .callNn nn => execCallNn nn s
  | .rst38 => restart I.rstVector s
  | .orB => execOrB s
  | .subN n => subImmediate I.flags n s
  | .djnzE e => execDjnzE e s
  | .addAHl => addMemory I.flags s
  | .addHlHl => doubleHl I.flags s
  | .retPe => execRetPe s

/-- `Step(s)` (R100) under given parameters. -/
def stepFor (I : Implementation) (s : State) : Result :=
  match s.run with
  | .running => fetchDecode I.opcodes s fun i => execFor I i s
  | .halted reason => .fault reason

/-- Construction (R210) of a machine with given parameters: any parameter outside R4's ranges and there is no machine
(R197). The parameters fixed for a machine are no state (R20), so they do not show in the state constructed. -/
def State.constructFor (I : Implementation) (p : Params) : Except Refusal State :=
  if I.wf then State.construct p else .error .malformedParameters

end Sys2Proof.Machine
end

