-- ==== Sys2Proof/Safety.lean ====
section
/-! DEFINITION. What counts as a safe run, in the terms claims use: runs and reachable states
(spec/40_execution_loop.md R105 to R107), the class of a halt cause (spec/60_exceptions.md R187), when and why an
instruction halts (R186), the invariant of reachable states, and the whole-machine tables of the spec (R23, R30,
R102). -/

namespace Sys2Proof.Safety

open Sys2Proof.Machine

/-! ### Runs -/

/-- `k` steps of a run: a step while the run state is `Running`, nothing once it is `Halted` (R105, R106). -/
def runFor : Nat → State → State
  | 0, s => s
  | k + 1, s =>
    match step s with
    | .next t => runFor k t
    | .fault _ => s
    | .refused _ => s

/-- The run from `s` ends with `reason` in the state `t` (R105). -/
def RunEnds (s : State) (reason : Fault) (t : State) : Prop := ∃ k, runFor k s = t ∧ t.run = .halted reason

/-- The states a machine built with the parameters `p` can reach (R105, R210). -/
inductive Reachable (p : Params) : State → Prop where
  | start {s : State} : State.construct p = .ok s → Reachable p s
  | step {s t : State} : Reachable p s → Machine.step s = .next t → Reachable p t

/-- A run from construction in which every instruction of the list retired, oldest first, ending in the given state. -/
inductive Retired (p : Params) : List Instr → State → Prop where
  | start {s : State} : State.construct p = .ok s → Retired p [] s
  | step {tr : List Instr} {i : Instr} {s t : State} :
      Retired p tr s → s.fetched = some i → Machine.step s = .next t → t.run = .running → Retired p (tr ++ [i]) t

/-- "The end of a run (normal by convention)": an unknown opcode (R107, R187). -/
def endsProgram : Fault → Bool
  | .unknownOpcode _ _ => true
  | .memOutOfBounds _ => false
  | .stackOutOfBounds _ => false
  | .pcOutOfRange _ => false

/-- A state a safe run may be in: running, or halted by an unknown opcode; the other three causes are faults (R187). -/
def safeState (s : State) : Bool :=
  match s.run with
  | .running => true
  | .halted reason => endsProgram reason

/-- A safe run: no state of it is halted by a fault (R187: something to prove, not to assume). -/
def SafeRun (s : State) : Prop := ∀ k, safeState (runFor k s) = true

/-! ### Why an instruction halts (R186) -/

/-- A Memory access at `addr` (R181). -/
def memCause (addr : Int) (s : State) : Option Fault :=
  if 0 ≤ addr ∧ addr < (s.mem.size : Int) then none else some (.memOutOfBounds addr)

/-- A computed `pc` or return address `pc + n` (R183). -/
def pcCause (n : Nat) (s : State) : Option Fault :=
  if s.pc.toNat + n ≤ 0xFFFF then none else some (.pcOutOfRange (s.pc.toNat + n))

/-- The two pushes of a call (R182): the first at `sp - 1`, the second at `sp - 2`. -/
def pushCause (s : State) : Option Fault :=
  if s.sp.toNat = 0 then some (.stackOutOfBounds (-1))
  else if s.stack.size ≤ s.sp.toNat - 1 then some (.stackOutOfBounds ((s.sp.toNat : Int) - 1))
  else if s.sp.toNat = 1 then some (.stackOutOfBounds (-1))
  else none

/-- The first of several causes, tested in order. -/
def firstCause : List (Option Fault) → Option Fault
  | [] => none
  | some f :: _ => some f
  | none :: rest => firstCause rest

/-- Why instruction `i` halts the machine in state `s`, if it does: the list of R186, instruction by instruction. -/
def haltCause (i : Instr) (s : State) : Option Fault :=
  let pc : Int := s.pc.toNat
  match i with
  | .nop => pcCause 1 s
  | .jpNn _ => firstCause [memCause (pc + 1) s, memCause (pc + 2) s]
  | .incB => pcCause 1 s
  | .ldABc _ _ => firstCause [memCause (s.b.toNat * 256 + s.c.toNat) s, pcCause 3 s]
  | .ldHlNn _ _ => firstCause [memCause (pc + 1) s, memCause (pc + 2) s, pcCause 3 s]
  | .callNn _ => firstCause [pcCause 3 s, pushCause s, memCause (pc + 1) s, memCause (pc + 2) s]
  | .rst38 => firstCause [pcCause 1 s, pushCause s]
  | .orB => pcCause 1 s
  | .subN _ => firstCause [memCause (pc + 1) s, pcCause 2 s]
  | .djnzE e => if s.b = 1#8 then pcCause 2 s else firstCause [memCause (pc + 1) s, pcCause (2 + e.toNat) s]
  | .addAHl => firstCause [memCause (s.h.toNat * 256 + s.l.toNat) s, pcCause 1 s]
  | .addHlHl => pcCause 1 s
  | .retPe => pcCause 1 s

/-- The run state that a halt cause, or none, leaves. -/
def runStateOf : Option Fault → RunState
  | none => .running
  | some reason => .halted reason

/-- Why a step of a running machine with the opcode map `M` halts it, if it does: the fetch, then the decoder, then the
instruction (R186). -/
def stepCauseBy (M : OpcodeMap) (s : State) : Option Fault :=
  match memCause s.pc.toNat s with
  | some f => some f
  | none =>
    match s.decodedBy M with
    | .error _ => some (.unknownOpcode (s.codeByte 0) s.pc)
    | .ok i => haltCause i s

/-- The same at the decided opcode bytes. -/
def stepCause (s : State) : Option Fault := stepCauseBy opcodes s

/-! ### The invariant of reachable states -/

/-- What every state reachable from construction has: both buffers canonical and within the ranges of R4, and `sp`
within 0 to `STACK_SIZE` (R25). -/
structure Inv (s : State) : Prop where
  mem_wf : s.mem.wf = true
  mem_size_pos : 1 ≤ s.mem.size
  mem_size_le : s.mem.size ≤ 65536
  stack_wf : s.stack.wf = true
  stack_size_le : s.stack.size ≤ 65535
  sp_le : s.sp.toNat ≤ s.stack.size

/-- What no step changes in a machine constructed with the parameters `p`, under the flag layout `L`: Memory is the
constructed one (R69), `D` and `E` are 0 (R23), the unused bits of `F` are 0 (R27), the Stack has its length (R32) and
`sp` stays within it (R25). -/
structure UntouchedParts (L : FlagLayout) (p : Params) (s : State) : Prop where
  mem_size : s.mem.size = p.memSize
  mem_get : ∀ a : Nat, s.mem.get a = byteAt p.image a
  d_zero : s.d = 0#8
  e_zero : s.e = 0#8
  unused_zero : s.f &&& unusedBits L = 0#8
  stack_size : s.stack.size = p.stackSize
  sp_le : s.sp.toNat ≤ p.stackSize

/-! ### The spec's tables over all instructions -/

/-- The 8-bit registers each instruction writes (R23). -/
def regsWritten : Instr → List Reg
  | .nop => []
  | .jpNn _ => []
  | .incB => [.b]
  | .ldABc _ _ => [.a]
  | .ldHlNn _ _ => [.h, .l]
  | .callNn _ => []
  | .rst38 => []
  | .orB => [.a]
  | .subN _ => [.a, .f]
  | .djnzE _ => [.b]
  | .addAHl => [.a, .f]
  | .addHlHl => [.h, .l, .f]
  | .retPe => []

/-- The flags each instruction writes (R30). -/
def flagsWritten : Instr → List Flag
  | .nop => []
  | .jpNn _ => []
  | .incB => []
  | .ldABc _ _ => []
  | .ldHlNn _ _ => []
  | .callNn _ => []
  | .rst38 => []
  | .orB => []
  | .subN _ => [.z, .n, .h, .c]
  | .djnzE _ => []
  | .addAHl => [.z, .n, .h, .c]
  | .addHlHl => [.z, .h, .c]
  | .retPe => []

/-- The instructions that push a return address (R32). -/
def isCall : Instr → Bool
  | .nop => false
  | .jpNn _ => false
  | .incB => false
  | .ldABc _ _ => false
  | .ldHlNn _ _ => false
  | .callNn _ => true
  | .rst38 => true
  | .orB => false
  | .subN _ => false
  | .djnzE _ => false
  | .addAHl => false
  | .addHlHl => false
  | .retPe => false

/-- `pc` after retirement, the table of R102. -/
def netPc (i : Instr) (s : State) : Nat :=
  match i with
  | .nop => s.pc.toNat + 1
  | .jpNn nn => nn.toNat
  | .incB => s.pc.toNat + 1
  | .ldABc _ _ => s.pc.toNat + 3
  | .ldHlNn _ _ => s.pc.toNat + 3
  | .callNn nn => nn.toNat
  | .rst38 => 0x0038
  | .orB => s.pc.toNat + 1
  | .subN _ => s.pc.toNat + 2
  | .djnzE e => if s.b = 1#8 then s.pc.toNat + 2 else s.pc.toNat + 2 + e.toNat
  | .addAHl => s.pc.toNat + 1
  | .addHlHl => s.pc.toNat + 1
  | .retPe => s.pc.toNat + 1

end Sys2Proof.Safety
end

