-- ==== Sys2Proof/Certificates/Slice0/Obligations.lean ====
section
/-! DEFINITION. The statements for the provers. Each docstring names the rule of spec/ it formalises. Where a statement
speaks of a halt caused by one of the three faults it claims the halt reason only, never the rest of the halted state
(spec/93_implementation_defined.md U4). -/

open Sys2Proof Sys2Proof.Machine Sys2Proof.Safety

/-! ### Encoding (spec/30_encoding.md) -/

/-- Decoding the bytes of an instruction, whatever follows them, gives the instruction and what follows, for every
legal opcode map (R81, R83, R84, R91; parameter `OPC` of R4). -/
def Obligations.DecodeOfEncodedInstruction : Prop :=
  ∀ M : OpcodeMap, M.wf = true → ∀ i : Instr, i.wf = true → ∀ rest : List Byte,
    decodeBytes M (encode M i ++ rest) = .ok (i, rest)

/-- Bytes that decode are exactly the encoding of what they decode to, followed by the bytes left over: no bit of an
encoding is dropped, the ignored bytes of `LD A,(BC)` among them (R81, R83). -/
def Obligations.EncodingOfDecodedBytes : Prop :=
  ∀ (M : OpcodeMap) (bs : List Byte) (i : Instr) (rest : List Byte),
    decodeBytes M bs = .ok (i, rest) → bs = encode M i ++ rest ∧ (encode M i).length = i.length

/-- R82: the opcode byte alone fixes the instruction and its length, or is unknown whatever follows it. -/
def Obligations.OpcodeByteFixesInstruction : Prop :=
  ∀ (M : OpcodeMap) (b0 : Byte),
    (∃ n row : Nat, 1 ≤ n ∧ n ≤ 3 ∧
      ∀ b1 b2 : Byte, ∃ i : Instr, decode M b0 b1 b2 = .ok i ∧ i.length = n ∧ i.ctorIdx = row) ∨
    (∀ b1 b2 : Byte, decode M b0 b1 b2 = .error (.unknownOpcode b0))

/-- R85: the unknown opcodes are the 243 values of the listed ranges, and no others (the opcode bytes are the
spec's decision D2, log entry 4). -/
def Obligations.UnknownOpcodeRanges : Prop :=
  let ranges : List (Nat × Nat) :=
    [(0x01, 0x03), (0x05, 0x09), (0x0B, 0x0F), (0x11, 0x20), (0x22, 0x28), (0x2A, 0x85), (0x87, 0xAF), (0xB1, 0xC2),
     (0xC4, 0xCC), (0xCE, 0xD5), (0xD7, 0xE7), (0xE9, 0xFE)]
  (∀ b0 b1 b2 : Byte, decode opcodes b0 b1 b2 = .error (.unknownOpcode b0) ↔
    ∃ r ∈ ranges, r.1 ≤ b0.toNat ∧ b0.toNat ≤ r.2) ∧
  (ranges.map fun r => r.2 + 1 - r.1).sum = 243

/-- R84, R81: the words of the opcode table, written out from the spec's encodings, decode to their instructions (opcode
bytes: decision D2, log entry 4). -/
def Obligations.TableWordsDecode : Prop :=
  decodeTableWord 8 0x00 = some .nop ∧
  decodeTableWord 24 0x1234C3 = some (.jpNn 0x1234#16) ∧
  decodeTableWord 8 0x04 = some .incB ∧
  decodeTableWord 24 0xDDEE0A = some (.ldABc 0xEE#8 0xDD#8) ∧
  decodeTableWord 24 0x5F2021 = some (.ldHlNn 0x20#8 0x5F#8) ∧
  decodeTableWord 24 0x1234CD = some (.callNn 0x1234#16) ∧
  decodeTableWord 8 0xFF = some .rst38 ∧
  decodeTableWord 8 0xB0 = some .orB ∧
  decodeTableWord 16 0x0FD6 = some (.subN 0x0F#8) ∧
  decodeTableWord 16 0x0310 = some (.djnzE 0x03#8) ∧
  decodeTableWord 8 0x86 = some .addAHl ∧
  decodeTableWord 8 0x29 = some .addHlHl ∧
  decodeTableWord 8 0xE8 = some .retPe

/-! ### The step (spec/40_execution_loop.md) -/

/-- R100: when the bytes at `pc` decode to a well-formed instruction, the step of a running machine is that
instruction's execution, with nothing around it (the instruction itself writes `pc`, R102). -/
def Obligations.StepRunsDecodedInstruction : Prop :=
  ∀ (s : State) (i : Instr), s.run = .running → s.pc.toNat < s.mem.size →
    decode opcodes (s.mem.get s.pc.toNat) (s.mem.get (s.pc.toNat + 1)) (s.mem.get (s.pc.toNat + 2)) = .ok i →
    i.wf = true → step s = exec i s

/-- R83: how each operand is formed from the Memory bytes after the opcode (opcode bytes: decision D2, log entry 4). -/
def Obligations.OperandsComeFromMemory : Prop :=
  ∀ s : State, s.run = .running →
    let op := s.mem.get s.pc.toNat
    let b1 := s.mem.get (s.pc.toNat + 1)
    let b2 := s.mem.get (s.pc.toNat + 2)
    (op = 0xC3#8 → s.pc.toNat + 2 < s.mem.size →
      step s = exec (.jpNn (BitVec.ofNat 16 (b2.toNat * 256 + b1.toNat))) s) ∧
    (op = 0xCD#8 → s.pc.toNat + 2 < s.mem.size →
      step s = exec (.callNn (BitVec.ofNat 16 (b2.toNat * 256 + b1.toNat))) s) ∧
    (op = 0x21#8 → s.pc.toNat + 2 < s.mem.size → step s = exec (.ldHlNn b1 b2) s) ∧
    (op = 0xD6#8 → s.pc.toNat + 1 < s.mem.size → step s = exec (.subN b1) s) ∧
    (op = 0x10#8 → s.pc.toNat + 1 < s.mem.size → step s = exec (.djnzE b1) s) ∧
    (op = 0x0A#8 → s.pc.toNat < s.mem.size → ∀ x1 x2 : Byte, step s = exec (.ldABc x1 x2) s)

/-- R101, R188: a fetch at `pc` beyond Memory halts the machine and changes nothing else (decision D17). -/
def Obligations.FetchOutsideMemoryHalts : Prop :=
  ∀ s : State, s.run = .running → s.mem.size ≤ s.pc.toNat →
    step s = .next { s with run := .halted (.memOutOfBounds s.pc.toNat) }

/-- R104: an unknown opcode halts the machine with its value and address; nothing else changes, `pc` included (that
`pc` stays is the spec's decision D22; the opcode bytes are its decision D2). -/
def Obligations.UnknownOpcodeHaltsUnchanged : Prop :=
  ∀ s : State, s.run = .running → s.pc.toNat < s.mem.size →
    s.mem.get s.pc.toNat ∉ opcodes.bytes →
    step s = .next { s with run := .halted (.unknownOpcode (s.mem.get s.pc.toNat) s.pc) }

/-- R106: a halted machine takes no step and its state does not change. -/
def Obligations.HaltedIsTerminal : Prop :=
  ∀ (s : State) (reason : Fault), s.run = .halted reason →
    (∀ t : State, step s ≠ .next t) ∧ ∀ k : Nat, runFor k s = s

/-- R110: the step has a next state from every running state, and every instruction has an outcome, a next state, in
every state; only a halted machine has no step. -/
def Obligations.StepDefinedOnRunningStates : Prop :=
  (∀ s : State, (∃ t, step s = .next t) ↔ s.run = .running) ∧
  (∀ (i : Instr) (s : State), ∃ t, exec i s = .next t)

/-- R186: whether a step halts the machine, and with which reason, is given by the first cause of the rule's list: the
fetch, the decoder, then the instruction's own tests in order. The recorded values follow R102, R123, R124, R125, R140
and R180 to R183. They rest on the spec's own decisions, which are choices: D7 (where the offset of `DJNZ` counts from),
D8 (the length of `LD A,(BC)`, log entry 8), D10 (the return address of `RST 38H`), D13 (`RET PE` runs, log entry 7),
D16 (`pc` never wraps, log entry 9), D17 (a fetch outside Memory), D18 (what a cause records) and D19 (the order). -/
def Obligations.HaltCauseOfEveryStep : Prop :=
  (∀ (i : Instr) (s : State), s.run = .running →
    ∃ t, exec i s = .next t ∧ t.run = runStateOf (haltCause i s)) ∧
  (∀ s : State, s.run = .running → ∃ t, step s = .next t ∧ t.run = runStateOf (stepCause s))

/-- R105, R108: a run has at most one end: one reason and one final state. -/
def Obligations.RunEndsAtMostOneWay : Prop :=
  ∀ (s t t' : State) (reason reason' : Fault), RunEnds s reason t → RunEnds s reason' t' → reason = reason' ∧ t = t'

/-! ### Control transfer (spec/41_control_transfer.md) -/

/-- R120: `NOP` changes only `pc`, by 1. -/
def Obligations.NopOnlyAdvancesPc : Prop :=
  ∀ s : State, s.pc.toNat + 1 ≤ 0xFFFF → exec .nop s = .next { s with pc := s.pc + 1#16 }

/-- The one-byte sequential instructions whose only exception it is halt at 0xFFFF, where `pc` would pass the 16-bit
range (R183, R186; that `pc` never wraps is the spec's own decision D16, log entry 9). -/
def Obligations.OneByteInstructionsHaltAtTheTop : Prop :=
  ∀ s : State, s.run = .running → s.pc = 0xFFFF#16 → ∀ i ∈ [Instr.nop, .incB, .orB, .addHlHl, .retPe],
    ∃ t, exec i s = .next t ∧ t.run = .halted (.pcOutOfRange 0x10000)

/-- R121: `JP nn` sets `pc` to `nn` exactly and changes nothing else (no loop increment: decision D6); it halts where
an operand byte is outside Memory. -/
def Obligations.JumpSetsPc : Prop :=
  (∀ (nn : Word) (s : State), s.pc.toNat + 2 < s.mem.size → exec (.jpNn nn) s = .next { s with pc := nn }) ∧
  (∀ (nn : Word) (s : State), s.mem.size ≤ s.pc.toNat + 1 →
    ∃ t, exec (.jpNn nn) s = .next t ∧ t.run = .halted (.memOutOfBounds ((s.pc.toNat : Int) + 1))) ∧
  (∀ (nn : Word) (s : State), s.mem.size = s.pc.toNat + 2 →
    ∃ t, exec (.jpNn nn) s = .next t ∧ t.run = .halted (.memOutOfBounds ((s.pc.toNat : Int) + 2)))

/-- R122, R58: `CALL nn` pushes `pc + 3`, high byte at `sp - 1` and low byte at `sp - 2`, lowers `sp` by 2 and sets
`pc` to `nn` (no loop increment: decision D6); every other Stack byte and all other state are unchanged. -/
def Obligations.CallPushesReturnAddress : Prop :=
  ∀ (nn : Word) (s : State), s.stack.wf = true → s.pc.toNat + 3 ≤ 0xFFFF → 2 ≤ s.sp.toNat →
    s.sp.toNat ≤ s.stack.size → s.pc.toNat + 2 < s.mem.size →
    ∃ t, exec (.callNn nn) s = .next t ∧ t.pc = nn ∧ t.sp = s.sp - 2#16 ∧
      (t.stack.get (s.sp.toNat - 1)).toNat = (s.pc.toNat + 3) / 256 ∧
      (t.stack.get (s.sp.toNat - 2)).toNat = (s.pc.toNat + 3) % 256 ∧
      (∀ a : Nat, a ≠ s.sp.toNat - 1 → a ≠ s.sp.toNat - 2 → t.stack.get a = s.stack.get a) ∧
      t.stack.size = s.stack.size ∧
      t = { s with pc := t.pc, sp := t.sp, stack := t.stack }

/-- R123, R58: `RST 38H` pushes `pc + 1` as a call does and sets `pc` to 0x0038 (decisions D4, D6, D10; log entry 4);
every other Stack byte and all other state are unchanged. -/
def Obligations.RestartPushesReturnAddress : Prop :=
  ∀ s : State, s.stack.wf = true → s.pc.toNat + 1 ≤ 0xFFFF → 2 ≤ s.sp.toNat → s.sp.toNat ≤ s.stack.size →
    ∃ t, exec .rst38 s = .next t ∧ t.pc = 0x0038#16 ∧ t.sp = s.sp - 2#16 ∧
      (t.stack.get (s.sp.toNat - 1)).toNat = (s.pc.toNat + 1) / 256 ∧
      (t.stack.get (s.sp.toNat - 2)).toNat = (s.pc.toNat + 1) % 256 ∧
      (∀ a : Nat, a ≠ s.sp.toNat - 1 → a ≠ s.sp.toNat - 2 → t.stack.get a = s.stack.get a) ∧
      t.stack.size = s.stack.size ∧
      t = { s with pc := t.pc, sp := t.sp, stack := t.stack }

/-- R124: `DJNZ e` decrements `B` modulo 256; if the result is nonzero it goes on at `pc + 2 + e` with `e` unsigned,
and otherwise at `pc + 2`, without an access to the offset byte; nothing else changes (where the offset counts from is the
spec's decision D7). -/
def Obligations.DecrementAndJumpIfNonzero : Prop :=
  (∀ (e : Byte) (s : State), s.b ≠ 1#8 → s.pc.toNat + 1 < s.mem.size → s.pc.toNat + 2 + e.toNat ≤ 0xFFFF →
    ∃ t, exec (.djnzE e) s = .next t ∧ (t.b.toNat : Int) = ((s.b.toNat : Int) - 1) % 256 ∧
      t.pc.toNat = s.pc.toNat + 2 + e.toNat ∧ t = { s with b := t.b, pc := t.pc }) ∧
  (∀ (e : Byte) (s : State), s.b = 1#8 → s.pc.toNat + 2 ≤ 0xFFFF →
    exec (.djnzE e) s = .next { s with b := 0#8, pc := s.pc + 2#16 })

/-- R125: `RET PE` changes only `pc`, by 1 (a placeholder; that it runs so is the spec's decision D13, log entry 7). -/
def Obligations.ConditionalReturnHasNoEffect : Prop :=
  ∀ s : State, s.pc.toNat + 1 ≤ 0xFFFF → exec .retPe s = .next { s with pc := s.pc + 1#16 }

/-! ### Loads (spec/42_load.md) -/

/-- R140: `LD A,(BC)` loads `A` from the address `B * 256 + C` and advances `pc` by 3, whatever the two skipped bytes
are and wherever they lie; nothing else changes (the registers and the length are the spec's decisions D3, D8, log entry 8). -/
def Obligations.LoadAccumulatorFromBc : Prop :=
  ∀ (x1 x2 : Byte) (s : State), s.b.toNat * 256 + s.c.toNat < s.mem.size → s.pc.toNat + 3 ≤ 0xFFFF →
    exec (.ldABc x1 x2) s =
      .next { s with a := s.mem.get (s.b.toNat * 256 + s.c.toNat), pc := s.pc + 3#16 }

/-- R141: `LD HL,nn` writes the first immediate byte to `H` and the second to `L` and advances `pc` by 3; nothing else
changes (decisions D3, D9). -/
def Obligations.LoadHlImmediate : Prop :=
  ∀ (hh ll : Byte) (s : State), s.pc.toNat + 2 < s.mem.size → s.pc.toNat + 3 ≤ 0xFFFF →
    exec (.ldHlNn hh ll) s = .next { s with h := hh, l := ll, pc := s.pc + 3#16 }

/-! ### 8-bit ALU (spec/43_alu8.md) -/

/-- R150: `INC B` increments `B` modulo 256, writes no flag and advances `pc` by 1 (that the register is `B` is the
spec's decision D3). -/
def Obligations.IncrementB : Prop :=
  ∀ s : State, s.pc.toNat + 1 ≤ 0xFFFF →
    ∃ t, exec .incB s = .next t ∧ t.b.toNat = (s.b.toNat + 1) % 256 ∧ t = { s with b := t.b, pc := s.pc + 1#16 }

/-- R151: `OR B` puts the bitwise OR of `A` and `B` into `A`, writes no flag and advances `pc` by 1 (the two registers
are the spec's decisions D3, D26). -/
def Obligations.OrBIntoAccumulator : Prop :=
  ∀ s : State, s.pc.toNat + 1 ≤ 0xFFFF →
    ∃ t, exec .orB s = .next t ∧
      (∀ j : Nat, t.a.getLsbD j = (s.a.getLsbD j || s.b.getLsbD j)) ∧
      t = { s with a := t.a, pc := s.pc + 1#16 }

/-- R152, R27: `SUB n`: the wrapped difference in `A`, Z from the result, N set, H from the low nibbles, C from the
borrow; the unused bits of `F` and all other state are unchanged and `pc` advances by 2. -/
def Obligations.SubtractImmediate : Prop :=
  ∀ (n : Byte) (s : State), s.pc.toNat + 1 < s.mem.size → s.pc.toNat + 2 ≤ 0xFFFF →
    ∃ t, exec (.subN n) s = .next t ∧
      (t.a.toNat : Int) = ((s.a.toNat : Int) - n.toNat) % 256 ∧
      (t.flag .z = true ↔ t.a = 0#8) ∧
      t.flag .n = true ∧
      (t.flag .h = true ↔ s.a.toNat % 16 < n.toNat % 16) ∧
      (t.flag .c = true ↔ s.a.toNat < n.toNat) ∧
      t.f &&& unusedBits flagLayout = s.f &&& unusedBits flagLayout ∧
      t = { s with a := t.a, f := t.f, pc := s.pc + 2#16 }

/-- R153, R27: `ADD A,(HL)`: the wrapped sum of `A` and the byte at `H * 256 + L` in `A`, Z from the result, N clear, H
from the low nibbles, C from the carry; the unused bits of `F` and all other state are unchanged and `pc` advances
by 1 (the pair is the spec's decision D3). -/
def Obligations.AddMemoryToAccumulator : Prop :=
  ∀ s : State, s.h.toNat * 256 + s.l.toNat < s.mem.size → s.pc.toNat + 1 ≤ 0xFFFF →
    let m := (s.mem.get (s.h.toNat * 256 + s.l.toNat)).toNat
    ∃ t, exec .addAHl s = .next t ∧
      t.a.toNat = (s.a.toNat + m) % 256 ∧
      (t.flag .z = true ↔ t.a = 0#8) ∧
      t.flag .n = false ∧
      (t.flag .h = true ↔ s.a.toNat % 16 + m % 16 > 0xF) ∧
      (t.flag .c = true ↔ s.a.toNat + m > 0xFF) ∧
      t.f &&& unusedBits flagLayout = s.f &&& unusedBits flagLayout ∧
      t = { s with a := t.a, f := t.f, pc := s.pc + 1#16 }

/-! ### 16-bit ALU (spec/44_alu16.md) -/

/-- R170, R27: `ADD HL,HL` doubles `HL` modulo 65536 with Z from the 16-bit result, H the carry out of bit 11, C the
carry out of bit 15, N kept; the unused bits of `F` and all other state are unchanged and `pc` advances by 1
(decisions D3, D11, D12). -/
def Obligations.DoubleHl : Prop :=
  ∀ s : State, s.pc.toNat + 1 ≤ 0xFFFF →
    let v := s.h.toNat * 256 + s.l.toNat
    ∃ t, exec .addHlHl s = .next t ∧
      t.h.toNat * 256 + t.l.toNat = (v + v) % 65536 ∧
      (t.flag .z = true ↔ t.h = 0#8 ∧ t.l = 0#8) ∧
      t.flag .n = s.flag .n ∧
      (t.flag .h = true ↔ v % 4096 + v % 4096 > 0x0FFF) ∧
      (t.flag .c = true ↔ v + v > 0xFFFF) ∧
      t.f &&& unusedBits flagLayout = s.f &&& unusedBits flagLayout ∧
      t = { s with h := t.h, l := t.l, f := t.f, pc := s.pc + 1#16 }

/-! ### The ALU functions (R154 to R156, R171) -/

/-- R154: the increment. -/
def Obligations.Inc8Laws : Prop :=
  ∀ v : Byte, (inc8 v).toNat = (v.toNat + 1) % 256 ∧ (v = 255#8 → inc8 v = 0#8) ∧
    (v.toNat < 255 → (inc8 v).toNat = v.toNat + 1)

/-- R155: the subtraction, its flags and their equivalents. -/
def Obligations.Sub8Laws : Prop :=
  ∀ a n : Byte,
    ((sub8 a n).r.toNat : Int) = ((a.toNat : Int) - n.toNat) % 256 ∧
    (n.toNat ≤ a.toNat → (sub8 a n).r.toNat = a.toNat - n.toNat) ∧
    (a.toNat < n.toNat → (sub8 a n).r.toNat = a.toNat + 256 - n.toNat) ∧
    ((sub8 a n).z = true ↔ (sub8 a n).r = 0#8) ∧
    ((sub8 a n).z = true ↔ a = n) ∧
    ((sub8 a n).h = true ↔ a.toNat % 16 < n.toNat % 16) ∧
    ((sub8 a n).c = true ↔ a.toNat < n.toNat)

/-- R156: the addition and its flags. -/
def Obligations.Add8Laws : Prop :=
  ∀ a m : Byte,
    (add8 a m).r.toNat = (a.toNat + m.toNat) % 256 ∧
    ((add8 a m).z = true ↔ (add8 a m).r = 0#8) ∧
    ((add8 a m).z = true ↔ a.toNat + m.toNat = 0 ∨ a.toNat + m.toNat = 256) ∧
    ((add8 a m).h = true ↔ a.toNat % 16 + m.toNat % 16 > 0xF) ∧
    ((add8 a m).c = true ↔ a.toNat + m.toNat > 0xFF)

/-- R171: the doubling and its flags (half-carry from bit 11: decision D11). -/
def Obligations.Dbl16Laws : Prop :=
  ∀ v : Word,
    (dbl16 v).r.toNat = (2 * v.toNat) % 65536 ∧
    (dbl16 v).r = v <<< 1 ∧
    ((dbl16 v).z = true ↔ (dbl16 v).r = 0#16) ∧
    ((dbl16 v).z = true ↔ v = 0x0000#16 ∨ v = 0x8000#16) ∧
    ((dbl16 v).h = true ↔ 2 * (v.toNat % 4096) > 0x0FFF) ∧
    (dbl16 v).h = v.getLsbD 11 ∧
    ((dbl16 v).c = true ↔ 2 * v.toNat > 0xFFFF) ∧
    (dbl16 v).c = v.getLsbD 15

/-! ### Flags and pairs (spec/10_state.md) -/

/-- R29: setting a flag true then false leaves every other bit of the flag byte as it was and clears the flag's own,
for every legal choice of the masks. -/
def Obligations.FlagBitIsolation : Prop :=
  ∀ L : FlagLayout, L.wf = true → ∀ (k : Flag) (f0 : Byte),
    let f1 := setFlagBit L k false (setFlagBit L k true f0)
    f1 &&& ~~~(maskOf L k) = f0 &&& ~~~(maskOf L k) ∧ f1 &&& maskOf L k = 0#8

/-- R26 to R28: for every legal choice of the masks, a flag reads back as written, the other flags and the unused bits
keep their values, and writes of two flags commute. -/
def Obligations.FlagAccessorLaws : Prop :=
  ∀ L : FlagLayout, L.wf = true → ∀ (k : Flag) (b : Bool) (f : Byte),
    getFlagBit L k (setFlagBit L k b f) = b ∧
    setFlagBit L k b f &&& unusedBits L = f &&& unusedBits L ∧
    ∀ j : Flag, j ≠ k →
      getFlagBit L j (setFlagBit L k b f) = getFlagBit L j f ∧
      ∀ b' : Bool, setFlagBit L j b' (setFlagBit L k b f) = setFlagBit L k b (setFlagBit L j b' f)

/-- R22, R5: a pair is its two registers, high register first; writing it writes both halves and nothing else. -/
def Obligations.PairIsAViewOfTwoRegisters : Prop :=
  ∀ s : State,
    (s.pair .bc).toNat = s.b.toNat * 256 + s.c.toNat ∧
    (s.pair .de).toNat = s.d.toNat * 256 + s.e.toNat ∧
    (s.pair .hl).toNat = s.h.toNat * 256 + s.l.toNat ∧
    ∀ (p : Pair) (w : Word), (s.setPair p w).pair p = w ∧
      (∀ q : Pair, q ≠ p → (s.setPair p w).pair q = s.pair q) ∧
      (s.setPair p w).a = s.a ∧ (s.setPair p w).f = s.f ∧ (s.setPair p w).pc = s.pc ∧ (s.setPair p w).sp = s.sp ∧
      (s.setPair p w).mem = s.mem ∧ (s.setPair p w).stack = s.stack ∧ (s.setPair p w).run = s.run

/-! ### Memory and Stack access (spec/20_memory.md) -/

/-- R50, R52: an in-bounds read gives the byte at the address and changes nothing; any other raises with that
address. -/
def Obligations.ReadsCheckBounds : Prop :=
  ∀ (addr : Int) (s : State) (k : Byte → Result),
    (0 ≤ addr → addr < s.mem.size → memRead addr s k = k (s.mem.get addr.toNat)) ∧
    (addr < 0 ∨ (s.mem.size : Int) ≤ addr →
      ∃ t, memRead addr s k = .next t ∧ t.run = .halted (.memOutOfBounds addr)) ∧
    (0 ≤ addr → addr < s.stack.size → stackRead addr s k = k (s.stack.get addr.toNat)) ∧
    (addr < 0 ∨ (s.stack.size : Int) ≤ addr →
      ∃ t, stackRead addr s k = .next t ∧ t.run = .halted (.stackOutOfBounds addr))

/-- R51, R53: an in-bounds write sets the byte at the address and changes no other byte and nothing else, keeps the
length and the canonical form; any other raises with that address. -/
def Obligations.WritesChangeOneByte : Prop :=
  ∀ (addr : Int) (v : Byte) (s : State),
    (s.mem.wf = true → 0 ≤ addr → addr < s.mem.size →
      ∃ m : Memory, (∀ k : State → Result, memWrite addr v s k = k { s with mem := m }) ∧
        m.get addr.toNat = v ∧ (∀ a : Nat, a ≠ addr.toNat → m.get a = s.mem.get a) ∧
        m.size = s.mem.size ∧ m.wf = true) ∧
    (addr < 0 ∨ (s.mem.size : Int) ≤ addr → ∀ k : State → Result,
      ∃ t, memWrite addr v s k = .next t ∧ t.run = .halted (.memOutOfBounds addr)) ∧
    (s.stack.wf = true → 0 ≤ addr → addr < s.stack.size →
      ∃ m : Memory, (∀ k : State → Result, stackWrite addr v s k = k { s with stack := m }) ∧
        m.get addr.toNat = v ∧ (∀ a : Nat, a ≠ addr.toNat → m.get a = s.stack.get a) ∧
        m.size = s.stack.size ∧ m.wf = true) ∧
    (addr < 0 ∨ (s.stack.size : Int) ≤ addr → ∀ k : State → Result,
      ∃ t, stackWrite addr v s k = .next t ∧ t.run = .halted (.stackOutOfBounds addr))

/-- R58, R59: a 16-bit push leaves the low byte at the new `sp` and the high byte above it, a 16-bit pop is its
inverse, and a pop from the empty stack raises. -/
def Obligations.PopIsInverseOfPush : Prop :=
  (∀ (w : Word) (s : State), s.stack.wf = true → 2 ≤ s.sp.toNat → s.sp.toNat ≤ s.stack.size →
    ∃ t : State, (∀ k : State → Result, push16 w s k = k t) ∧
      t.sp = s.sp - 2#16 ∧
      (t.stack.get t.sp.toNat).toNat = w.toNat % 256 ∧
      (t.stack.get (t.sp.toNat + 1)).toNat = w.toNat / 256 ∧
      ∀ k : Word → State → Result, pop16 t k = k w { t with sp := s.sp }) ∧
  (∀ (s : State) (k : Byte → State → Result), s.sp.toNat = s.stack.size →
    ∃ t, pop8 s k = .next t ∧ t.run = .halted (.stackOutOfBounds s.stack.size))

/-! ### Frames: what an instruction leaves unchanged when it retires -/

/-- R23, R25: an instruction that retires changes no 8-bit register but those the table of R23 lists for it, and `sp`
only if it is `CALL nn` or `RST 38H`. -/
def Obligations.RegisterFrame : Prop :=
  ∀ (i : Instr) (s t : State), s.run = .running → exec i s = .next t → t.run = .running →
    (∀ r : Reg, r ∉ regsWritten i → t.reg r = s.reg r) ∧ (isCall i = false → t.sp = s.sp)

/-- R27, R30: an instruction that retires changes no flag but those R30 lists for it, and no unused bit of `F`. -/
def Obligations.FlagFrame : Prop :=
  ∀ (i : Instr) (s t : State), s.run = .running → exec i s = .next t → t.run = .running →
    (∀ k : Flag, k ∉ flagsWritten i → t.flag k = s.flag k) ∧
    t.f &&& unusedBits flagLayout = s.f &&& unusedBits flagLayout

/-- R69: no instruction writes Memory: after any step, retired or halted, every address reads as before and the length
is the same. -/
def Obligations.MemoryFrame : Prop :=
  ∀ (i : Instr) (s t : State), exec i s = .next t ∨ step s = .next t →
    t.mem.size = s.mem.size ∧ ∀ a : Nat, t.mem.get a = s.mem.get a

/-- R32, R69: an instruction that retires leaves every Stack byte as it was, except that a call stores the two bytes at
`sp - 1` and `sp - 2`. -/
def Obligations.StackFrame : Prop :=
  ∀ (i : Instr) (s t : State), s.stack.wf = true → s.run = .running → exec i s = .next t → t.run = .running →
    t.stack.size = s.stack.size ∧
    ∀ a : Nat, (isCall i = true → (a : Int) ≠ (s.sp.toNat : Int) - 1 ∧ (a : Int) ≠ (s.sp.toNat : Int) - 2) →
      t.stack.get a = s.stack.get a

/-- R102: `pc` after retirement, for every instruction. Of that table these are choices, the spec's own decisions: that a
transfer goes to its target exactly (D6), the 0x0038 of `RST 38H` (D4, log entry 4), the `pc + 2 + e` and `pc + 2` of
`DJNZ` (D7), the `pc + 3` of `LD A,(BC)` (D8, log entry 8) and the `pc + 1` of the placeholder `RET PE` (D13, log
entry 7). -/
def Obligations.PcAfterRetirement : Prop :=
  ∀ (i : Instr) (s t : State), s.run = .running → exec i s = .next t → t.run = .running → t.pc.toNat = netPc i s

/-! ### What an instruction does not read -/

/-- R30, R23: no instruction's result depends on `F`: with another flag byte the same thing happens, the written flags
come out the same, and only the rest of `F` differs. -/
def Obligations.NoInstructionReadsFlags : Prop :=
  ∀ (i : Instr) (s t t' : State) (f' : Byte), s.run = .running → exec i s = .next t →
    exec i { s with f := f' } = .next t' →
    t'.run = t.run ∧
    (t.run = .running → { t' with f := 0#8 } = { t with f := 0#8 } ∧ ∀ k ∈ flagsWritten i, t'.flag k = t.flag k)

/-- R32, R69: no instruction reads the Stack: with other Stack contents of the same length the same thing happens, and
only Stack contents differ afterwards. -/
def Obligations.NoInstructionReadsStack : Prop :=
  ∀ (i : Instr) (s t t' : State) (cells' : List Host.Cell), s.run = .running → exec i s = .next t →
    exec i { s with stack := { s.stack with cells := cells' } } = .next t' →
    t'.run = t.run ∧
    (t.run = .running → { t' with stack := s.stack } = { t with stack := s.stack } ∧ t'.stack.size = t.stack.size)

/-- R23: `D` and `E` are neither read nor written: with other values in them the same thing happens and they keep those
values. -/
def Obligations.NoInstructionUsesDE : Prop :=
  ∀ (i : Instr) (s t t' : State) (d' e' : Byte), s.run = .running → exec i s = .next t →
    exec i { s with d := d', e := e' } = .next t' →
    t'.run = t.run ∧ (t.run = .running → t' = { t with d := d', e := e' } ∧ t.d = s.d ∧ t.e = s.e)

/-! ### Reset and invariants (spec/10_state.md R36, spec/70_reset_and_hazards.md) -/

/-- R36: after construction with parameters in the ranges of R4, every piece of state has the table's value
(the Stack's and `F`'s zeros and the ranges are the spec's decisions D14, D15, D24). -/
def Obligations.ConstructionGivesResetValues : Prop :=
  ∀ p : Params, 1 ≤ p.memSize → p.memSize ≤ 65536 → p.stackSize ≤ 65535 → p.startPc ≤ 65535 →
    p.image.length ≤ p.memSize →
    ∃ s, State.construct p = .ok s ∧
      (∀ r : Reg, s.reg r = 0#8) ∧ s.pc.toNat = p.startPc ∧ s.sp.toNat = p.stackSize ∧
      s.mem.size = p.memSize ∧
      (∀ (a : Nat) (h : a < p.image.length), s.mem.get a = p.image[a]) ∧
      (∀ a : Nat, p.image.length ≤ a → a < p.memSize → s.mem.get a = 0#8) ∧
      s.stack.size = p.stackSize ∧ (∀ a : Nat, a < p.stackSize → s.stack.get a = 0#8) ∧
      s.run = .running

/-- R197: parameters outside the ranges of R4 are refused, and no others (decision D14). -/
def Obligations.ConstructionRefusesMalformedParameters : Prop :=
  ∀ p : Params, State.construct p = .error .malformedParameters ↔
    p.memSize = 0 ∨ 65536 < p.memSize ∨ 65535 < p.stackSize ∨ 65535 < p.startPc ∨ p.memSize < p.image.length

/-- The model's choice (log entries 2 and 3): `State.reset` is the construction of R210 with the default `MEM_SIZE` of
R4, no image, and the model's own `STACK_SIZE` and `START_PC`. -/
def Obligations.ResetIsAConstruction : Prop := State.construct Config.params = .ok State.reset

/-- The invariant of reachable states holds after construction, whatever parameters construction accepts (R25, R36). The
sizes, Memory 1 to 65536 bytes and the Stack at most 65535, are the ranges of R4 that R197 enforces, and those ranges
are choices: the spec's own decisions D14 and D15. -/
def Obligations.InvariantHoldsAfterConstruction : Prop :=
  ∀ (p : Params) (s : State), State.construct p = .ok s → Inv s

/-- The invariant holds at `State.reset` (whose parameters are the model's choice, log entries 2 and 3). -/
def Obligations.InvariantHoldsAtReset : Prop := Inv State.reset

/-- Every step keeps the invariant: canonical buffers of legal fixed length, and `sp` within 0 to `STACK_SIZE` (R25,
R31, R32). -/
def Obligations.StepKeepsInvariant : Prop :=
  ∀ s t : State, Inv s → step s = .next t → Inv t

/-- In every state a machine can reach, Memory is the constructed Memory, `D` and `E` are 0, the unused bits of `F` are
0, the Stack has its length and `sp` is within 0 to `STACK_SIZE` (R23, R25, R27, R31, R32, R69). That `F` starts as 0 is the spec's own decision D24, that no
instruction writes Memory its D27. `StepKeepsUntouchedParts` is the step of it. -/
def Obligations.ReachableStatesKeepUntouchedParts : Prop :=
  ∀ (p : Params) (s : State), Reachable p s →
    s.mem.size = p.memSize ∧ (∀ a : Nat, s.mem.get a = byteAt p.image a) ∧
    s.d = 0#8 ∧ s.e = 0#8 ∧ s.f &&& unusedBits flagLayout = 0#8 ∧
    s.stack.size = p.stackSize ∧ s.sp.toNat ≤ p.stackSize

/-- R122: return addresses are never consumed. In a run from construction each retired `CALL nn` or `RST 38H` has taken
two Stack bytes for good, so at most `STACK_SIZE / 2` of them retire.
This rests on `RET PE` being the placeholder of decision D13 (log entry 7): a working return would give bytes back.
`RetiringStepTakesTwoStackBytesPerCall` is the step of it. -/
def Obligations.CallsAreBoundedByStackSize : Prop :=
  ∀ (p : Params) (tr : List Instr) (s : State), Retired p tr s →
    2 * tr.countP isCall + s.sp.toNat = p.stackSize ∧ tr.countP isCall ≤ p.stackSize / 2

/-- The step behind `ReachableStatesKeepUntouchedParts`, for the machine with any parameters: from every state, reachable
or not, in which Memory reads as the image, `D`, `E` and the unused bits of `F` are 0, the buffers have the lengths of
`p` and `sp` is within 0 to `STACK_SIZE`, a step that gives a next state, retired or halted, keeps all of it (R23, R25,
R27, R31, R32, R69; the unused bits are the spec's own decision D24). At the decided defaults the machine is `step`
(`DecidedDefaultsGiveTheMachine`). -/
def Obligations.StepKeepsUntouchedParts : Prop :=
  ∀ (I : Implementation) (p : Params) (s t : State), UntouchedParts I.flags p s → stepFor I s = .next t →
    UntouchedParts I.flags p t

/-- The step behind `CallsAreBoundedByStackSize`: from every state, reachable or not, a retiring step lowers `sp` by 2 if
it executed `CALL nn` or `RST 38H`, and leaves it otherwise (R25, R122, R123). It rests on `RET PE` being the placeholder
of decision D13 (log entry 7). -/
def Obligations.RetiringStepTakesTwoStackBytesPerCall : Prop :=
  ∀ (i : Instr) (s t : State), s.fetched = some i → step s = .next t → t.run = .running →
    t.sp.toNat + 2 * (if isCall i then 1 else 0) = s.sp.toNat

/-! ### The parameters `OPC`, `MASK_k` and `RST_VECTOR` as arguments of the machine (spec/00_scope.md R4) -/

/-- R4: `step` and `exec` are the machine with all parameters as arguments, at the decided defaults (decisions D2, D4, D5;
log entry 4). -/
def Obligations.DecidedDefaultsGiveTheMachine : Prop :=
  decidedDefaults.wf = true ∧
  (∀ (i : Instr) (s : State), execFor decidedDefaults i s = exec i s) ∧
  (∀ s : State, stepFor decidedDefaults s = step s) ∧
  (∀ p : Params, State.constructFor decidedDefaults p = State.construct p)

/-- R4, R100, R101, R104: under every legal opcode map, a step of a running machine whose bytes at `pc` are the encoding of
an instruction is that instruction's execution, whatever follows those bytes; one whose byte at `pc` is no opcode of the
map halts, and one whose `pc` is beyond Memory halts, with nothing else changed (decisions D17, D22). -/
def Obligations.StepRunsEncodedInstructionUnderEveryOpcodeMap : Prop :=
  ∀ I : Implementation, I.wf = true → ∀ s : State, s.run = .running →
    (∀ i : Instr, i.wf = true → s.pc.toNat < s.mem.size →
      (∀ (k : Nat) (h : k < (encode I.opcodes i).length), s.mem.get (s.pc.toNat + k) = (encode I.opcodes i)[k]) →
      stepFor I s = execFor I i s) ∧
    (s.pc.toNat < s.mem.size → s.mem.get s.pc.toNat ∉ I.opcodes.bytes →
      stepFor I s = .next { s with run := .halted (.unknownOpcode (s.mem.get s.pc.toNat) s.pc) }) ∧
    (s.mem.size ≤ s.pc.toNat → stepFor I s = .next { s with run := .halted (.memOutOfBounds s.pc.toNat) })

/-- R26, R30, R123: the masks matter to nothing but `F`, the restart vector to nothing but `pc` after `RST 38H`. Under two
legal choices of the parameters, from states that hold the same flags and agree in all but `F`, an instruction ends in
the same way, with the same halt reason; if it retires, the states afterwards hold the same flags and agree in all but `F`
(and in all but `pc` after `RST 38H`), and each keeps its own unused bits (R27, decision D24). With the results stated
at the decided masks this gives the results under every layout. -/
def Obligations.ParametersMatterOnlyToFlagPositionsAndRestart : Prop :=
  ∀ I J : Implementation, I.wf = true → J.wf = true →
    ∀ (i : Instr) (s t t' : State) (f' : Byte), s.run = .running →
      (∀ k : Flag, getFlagBit J.flags k f' = getFlagBit I.flags k s.f) →
      execFor I i s = .next t → execFor J i { s with f := f' } = .next t' →
      t'.run = t.run ∧
      (t.run = .running →
        { t' with f := t.f, pc := t.pc } = t ∧ (i ≠ .rst38 → t'.pc = t.pc) ∧
        (∀ k : Flag, t'.flagBy J.flags k = t.flagBy I.flags k) ∧
        t.f &&& unusedBits I.flags = s.f &&& unusedBits I.flags ∧
        t'.f &&& unusedBits J.flags = f' &&& unusedBits J.flags)

/-- R4, R123, R58: whatever `RST_VECTOR` is, `RST 38H` goes to it and pushes `pc + 1` as at the decided vector (the return
address is decision D10, the transfer without loop increment D6). -/
def Obligations.RestartGoesToTheVector : Prop :=
  ∀ (I : Implementation) (s : State), s.stack.wf = true → s.pc.toNat + 1 ≤ 0xFFFF → 2 ≤ s.sp.toNat →
    s.sp.toNat ≤ s.stack.size →
    ∃ t, execFor I .rst38 s = .next t ∧ t.pc = I.rstVector ∧ t.sp = s.sp - 2#16 ∧
      (t.stack.get (s.sp.toNat - 1)).toNat = (s.pc.toNat + 1) / 256 ∧
      (t.stack.get (s.sp.toNat - 2)).toNat = (s.pc.toNat + 1) % 256 ∧
      exec .rst38 s = .next { t with pc := rstVector }

/-- R4, R197: there is no machine where the opcode map is not injective, the masks are not four distinct one-bit masks, or
a parameter of construction is out of its range; and there is one otherwise (decision D14). -/
def Obligations.IllegalParametersGiveNoMachine : Prop :=
  ∀ (I : Implementation) (p : Params), State.constructFor I p = .error .malformedParameters ↔
    ¬ I.opcodes.bytes.Nodup ∨ ¬ I.flags.masks.Nodup ∨ (∃ m ∈ I.flags.masks, ∀ k < 8, m.toNat ≠ 2 ^ k) ∨
    p.memSize = 0 ∨ 65536 < p.memSize ∨ 65535 < p.stackSize ∨ 65535 < p.startPc ∨ p.memSize < p.image.length
end

