-- ==== Sys2Proof/Laws/Words.lean ====
section
/-! SUPPORT. Laws of the byte and word helpers (spec/00_scope.md R5). -/

namespace Sys2Proof

theorem pairWord_toNat (h l : Byte) : (pairWord h l).toNat = h.toNat * 256 + l.toNat := by
  have := h.isLt
  have := l.isLt
  simp only [pairWord, BitVec.toNat_ofNat]
  omega

theorem hiByte_toNat (w : Word) : (hiByte w).toNat = w.toNat / 256 := by
  have := w.isLt
  simp only [hiByte, BitVec.extractLsb'_toNat, Nat.shiftRight_eq_div_pow]
  omega

theorem loByte_toNat (w : Word) : (loByte w).toNat = w.toNat % 256 := by
  simp [loByte, BitVec.extractLsb'_toNat]

@[simp] theorem pairWord_hi_lo (w : Word) : pairWord (hiByte w) (loByte w) = w := by
  apply BitVec.eq_of_toNat_eq
  rw [pairWord_toNat, hiByte_toNat, loByte_toNat]
  omega

@[simp] theorem hiByte_pairWord (h l : Byte) : hiByte (pairWord h l) = h := by
  have := l.isLt
  apply BitVec.eq_of_toNat_eq
  rw [hiByte_toNat, pairWord_toNat]
  omega

@[simp] theorem loByte_pairWord (h l : Byte) : loByte (pairWord h l) = l := by
  have := l.isLt
  apply BitVec.eq_of_toNat_eq
  rw [loByte_toNat, pairWord_toNat]
  omega

end Sys2Proof
end

