-- ==== Sys2Proof/Laws/Decode.lean ====
section
/-! SUPPORT. Laws of the decoder (spec/30_encoding.md R82 to R85, R91): what a decoded instruction says about the bytes,
and what each opcode byte decodes to. -/

namespace Sys2Proof

/-- A rejection does not come out of a matched row. -/
theorem error_of_ite {c : Prop} [Decidable c] {i : Instr} {x : Except Reject Instr} {r : Reject}
    (h : (if c then Except.ok i else x) = .error r) : x = .error r := by
  by_cases hc : c
  · rw [if_pos hc] at h; cases h
  · rwa [if_neg hc] at h

/-- An instruction comes out of the matched row or of a later one. -/
theorem ok_of_ite {c : Prop} [Decidable c] {a i : Instr} {x : Except Reject Instr}
    (h : (if c then Except.ok a else x) = .ok i) : (c ∧ a = i) ∨ x = .ok i := by
  by_cases hc : c
  · rw [if_pos hc] at h; cases h; exact .inl ⟨hc, rfl⟩
  · rw [if_neg hc] at h; exact .inr h

theorem decode_error {M : OpcodeMap} {b0 b1 b2 : Byte} {r : Reject} (h : decode M b0 b1 b2 = .error r) :
    r = .unknownOpcode b0 := by
  unfold decode at h
  iterate 13 replace h := error_of_ite h
  cases h
  rfl

/-- The bytes a decoded instruction came from are its encoding. -/
theorem encode_of_decode {M : OpcodeMap} {b0 b1 b2 : Byte} {i : Instr} (h : decode M b0 b1 b2 = .ok i) :
    encode M i = [b0, b1, b2].take i.length := by
  unfold decode at h
  iterate 13
    obtain ⟨rfl, rfl⟩ | h := ok_of_ite h
    · simp [encode, Instr.length, hiByte_pairWord, loByte_pairWord]
  cases h

/-- The opcode byte of an instruction. -/
def opcodeOf (M : OpcodeMap) : Instr → Byte
  | .nop => M.nop
  | .jpNn _ => M.jpNn
  | .incB => M.incB
  | .ldABc _ _ => M.ldABc
  | .ldHlNn _ _ => M.ldHlNn
  | .callNn _ => M.callNn
  | .rst38 => M.rst38
  | .orB => M.orB
  | .subN _ => M.subN
  | .djnzE _ => M.djnzE
  | .addAHl => M.addAHl
  | .addHlHl => M.addHlHl
  | .retPe => M.retPe

/-- The instruction with the opcode of `i` and the two bytes that follow it as operands. -/
def withOperandBytes (i : Instr) (b1 b2 : Byte) : Instr :=
  match i with
  | .nop => .nop
  | .jpNn _ => .jpNn (pairWord b2 b1)
  | .incB => .incB
  | .ldABc _ _ => .ldABc b1 b2
  | .ldHlNn _ _ => .ldHlNn b1 b2
  | .callNn _ => .callNn (pairWord b2 b1)
  | .rst38 => .rst38
  | .orB => .orB
  | .subN _ => .subN b1
  | .djnzE _ => .djnzE b1
  | .addAHl => .addAHl
  | .addHlHl => .addHlHl
  | .retPe => .retPe

/-- A row whose opcode is another one is passed over. -/
theorem ite_skip {c : Prop} [Decidable c] {a x y : Except Reject Instr} (hc : ¬ c) (h : x = y) :
    (if c then a else x) = y := by
  rw [if_neg hc, h]

/-- Under a legal opcode map, the opcode byte of an instruction decodes to that instruction with the operands that
follow. -/
theorem decode_opcodeOf {M : OpcodeMap} (hM : M.wf = true) {i : Instr} {b0 : Byte} (h : b0 = opcodeOf M i)
    (b1 b2 : Byte) : decode M b0 b1 b2 = .ok (withOperandBytes i b1 b2) := by
  replace hM : M.bytes.Nodup := of_decide_eq_true hM
  simp only [OpcodeMap.bytes, List.nodup_cons, List.mem_cons, List.not_mem_nil, or_false, not_or] at hM
  obtain ⟨⟨_, _, _, _, _, _, _, _, _, _, _, _⟩, ⟨_, _, _, _, _, _, _, _, _, _, _⟩, ⟨_, _, _, _, _, _, _, _, _, _⟩,
    ⟨_, _, _, _, _, _, _, _, _⟩, ⟨_, _, _, _, _, _, _, _⟩, ⟨_, _, _, _, _, _, _⟩, ⟨_, _, _, _, _, _⟩,
    ⟨_, _, _, _, _⟩, ⟨_, _, _, _⟩, ⟨_, _, _⟩, ⟨_, _⟩, _, -⟩ := hM
  cases i <;> simp only [opcodeOf] at h <;> unfold decode <;>
    repeat' first
      | exact if_pos h
      | refine ite_skip (fun e => absurd (e.symm.trans h) (by assumption)) ?_

theorem opcodes_wf : opcodes.wf = true := by decide

/-- The encoding starts with the opcode byte. -/
theorem encode_head (M : OpcodeMap) (i : Instr) : (encode M i).head? = some (opcodeOf M i) := by cases i <;> rfl

/-- A byte that is no opcode of the map is rejected by name. -/
theorem decode_of_not_mem {M : OpcodeMap} {b0 : Byte} (h : b0 ∉ M.bytes) (b1 b2 : Byte) :
    decode M b0 b1 b2 = .error (.unknownOpcode b0) := by
  simp only [OpcodeMap.bytes, List.mem_cons, List.not_mem_nil, or_false, not_or] at h
  obtain ⟨_, _, _, _, _, _, _, _, _, _, _, _, _⟩ := h
  simp only [decode]
  repeat rw [if_neg (by assumption)]

end Sys2Proof
end

