-- ==== Sys2Proof/Laws/Flags.lean ====
section
/-! SUPPORT. Laws of masks and of the flag accessors (spec/10_state.md R26 to R29). -/

namespace Sys2Proof.Machine

/-- Two masks that share no bit. -/
theorem oneBitMasks_disjoint {m m' : Byte} (h : isOneBitMask m = true) (h' : isOneBitMask m' = true) (hne : m ≠ m') :
    m &&& m' = 0#8 := by
  simp only [isOneBitMask, List.contains_iff_mem, List.mem_cons, List.not_mem_nil, or_false] at h h'
  rcases h with rfl | rfl | rfl | rfl | rfl | rfl | rfl | rfl <;>
    rcases h' with rfl | rfl | rfl | rfl | rfl | rfl | rfl | rfl <;>
      first | rfl | exact absurd rfl hne

theorem oneBitMask_ne_zero {m : Byte} (h : isOneBitMask m = true) : m ≠ 0#8 := by
  rintro rfl
  exact absurd h (by decide)

theorem maskOf_mem_masks (L : FlagLayout) (k : Flag) : maskOf L k ∈ L.masks := by
  cases k <;> simp [maskOf, FlagLayout.masks]

/-- What a legal layout gives: every mask is one bit and two flags share none. -/
theorem maskOf_of_wf {L : FlagLayout} (hL : L.wf = true) :
    (∀ k, isOneBitMask (maskOf L k) = true) ∧ ∀ j k, j ≠ k → maskOf L j &&& maskOf L k = 0#8 := by
  simp only [FlagLayout.wf, Bool.and_eq_true, List.all_eq_true, decide_eq_true_eq] at hL
  have hone : ∀ k, isOneBitMask (maskOf L k) = true := fun k => hL.1 _ (maskOf_mem_masks L k)
  refine ⟨hone, fun j k hjk => oneBitMasks_disjoint (hone j) (hone k) ?_⟩
  have hnd := hL.2
  simp only [FlagLayout.masks, List.nodup_cons, List.mem_cons, List.not_mem_nil, or_false, not_or] at hnd
  obtain ⟨⟨hzn, hzh, hzc⟩, ⟨hnh, hnc⟩, hhc, -⟩ := hnd
  cases j <;> cases k <;>
    first
      | exact absurd rfl hjk
      | assumption
      | exact Ne.symm (by assumption)

theorem flagLayout_wf : flagLayout.wf = true := by decide

/-- A bit of a flag byte after `set_flag`. -/
theorem getLsbD_setFlagBit (L : FlagLayout) (k : Flag) (b : Bool) (f : Byte) (i : Nat) :
    (setFlagBit L k b f).getLsbD i = if (maskOf L k).getLsbD i then b else f.getLsbD i := by
  by_cases hi : i < 8
  · cases b <;> simp only [setFlagBit, Bool.false_eq_true, if_false, if_true, BitVec.getLsbD_and, BitVec.getLsbD_or,
      BitVec.getLsbD_not, hi, decide_true, Bool.true_and] <;>
      cases (maskOf L k).getLsbD i <;> cases f.getLsbD i <;> rfl
  · rw [BitVec.getLsbD_of_ge _ _ (by omega), BitVec.getLsbD_of_ge _ _ (by omega), BitVec.getLsbD_of_ge _ _ (by omega)]
    simp

/-- Masking the bits of a flag write away leaves the byte as it was. -/
theorem setFlagBit_and_of_disjoint {L : FlagLayout} {k : Flag} {m : Byte} (b : Bool) (f : Byte)
    (hm : maskOf L k &&& m = 0#8) : setFlagBit L k b f &&& m = f &&& m := by
  apply BitVec.eq_of_getLsbD_eq
  intro i _
  have h := congrArg (fun v : Byte => v.getLsbD i) hm
  simp only [BitVec.getLsbD_and, BitVec.getLsbD_zero, Bool.and_eq_false_iff] at h
  simp only [BitVec.getLsbD_and, getLsbD_setFlagBit]
  rcases h with h | h <;> simp [h]

/-- A set flag has its mask's bits, a cleared one none of them. -/
theorem setFlagBit_and_mask (L : FlagLayout) (k : Flag) (b : Bool) (f : Byte) :
    setFlagBit L k b f &&& maskOf L k = if b then maskOf L k else 0#8 := by
  apply BitVec.eq_of_getLsbD_eq
  intro i _
  simp only [BitVec.getLsbD_and, getLsbD_setFlagBit]
  cases b <;> cases h : (maskOf L k).getLsbD i <;> simp [h]

theorem getFlagBit_setFlagBit_same {L : FlagLayout} (hL : L.wf = true) (k : Flag) (b : Bool) (f : Byte) :
    getFlagBit L k (setFlagBit L k b f) = b := by
  have h0 := oneBitMask_ne_zero ((maskOf_of_wf hL).1 k)
  cases b <;> simp [getFlagBit, setFlagBit_and_mask, h0]

theorem getFlagBit_setFlagBit_other {L : FlagLayout} (hL : L.wf = true) {j k : Flag} (hjk : j ≠ k) (b : Bool)
    (f : Byte) : getFlagBit L j (setFlagBit L k b f) = getFlagBit L j f := by
  rw [getFlagBit, getFlagBit, setFlagBit_and_of_disjoint b f ((maskOf_of_wf hL).2 k j hjk.symm)]

/-- The unused bits share nothing with a mask. -/
theorem maskOf_and_unusedBits (L : FlagLayout) (k : Flag) : maskOf L k &&& unusedBits L = 0#8 := by
  apply BitVec.eq_of_getLsbD_eq
  intro i hi
  cases k <;> simp [maskOf, unusedBits, hi] <;> intro h <;> simp [h]

@[simp] theorem setFlagBit_and_unusedBits (L : FlagLayout) (k : Flag) (b : Bool) (f : Byte) :
    setFlagBit L k b f &&& unusedBits L = f &&& unusedBits L :=
  setFlagBit_and_of_disjoint b f (maskOf_and_unusedBits L k)

/-- The machine's layout: reading one flag after writing another. -/
@[simp] theorem getFlagBit_setFlagBit (j k : Flag) (b : Bool) (f : Byte) :
    getFlagBit flagLayout j (setFlagBit flagLayout k b f) = if j = k then b else getFlagBit flagLayout j f := by
  split
  · next h => subst h; exact getFlagBit_setFlagBit_same flagLayout_wf j b f
  · next h => exact getFlagBit_setFlagBit_other flagLayout_wf h b f

theorem lowNibble_eq (v : Byte) : lowNibble v = v.toNat % 16 := by
  have := Nat.and_two_pow_sub_one_eq_mod v.toNat 4
  simpa [lowNibble, BitVec.toNat_and] using this

end Sys2Proof.Machine
end

