-- ==== Sys2Proof/Laws/Memory.lean ====
section
/-! SUPPORT. Laws of byte buffers: read after write, other addresses alone, and every operation keeps the canonical
form. -/

namespace Sys2Proof.Machine

/-! ### Cells -/

theorem cellsWf_mono {size lo lo' : Nat} {cs : List Host.Cell} (h : cellsWf size lo cs = true) (hle : lo' ≤ lo) :
    cellsWf size lo' cs = true := by
  cases cs with
  | nil => rfl
  | cons x rest =>
    obtain ⟨x, v⟩ := x
    simp only [cellsWf, Bool.and_eq_true, decide_eq_true_eq] at h ⊢
    exact ⟨⟨⟨by omega, h.1.1.2⟩, h.1.2⟩, h.2⟩

theorem readCells_below {size lo a : Nat} {cs : List Host.Cell} (h : cellsWf size lo cs = true) (ha : a < lo) :
    readCells a cs = unlistedByte := by
  induction cs generalizing lo with
  | nil => rfl
  | cons x rest ih =>
    obtain ⟨x, v⟩ := x
    simp only [cellsWf, Bool.and_eq_true, decide_eq_true_eq] at h
    rw [readCells, if_neg (by omega)]
    exact ih h.2 (by omega)

theorem readCells_beyond {size lo a : Nat} {cs : List Host.Cell} (h : cellsWf size lo cs = true) (ha : size ≤ a) :
    readCells a cs = unlistedByte := by
  induction cs generalizing lo with
  | nil => rfl
  | cons x rest ih =>
    obtain ⟨x, v⟩ := x
    simp only [cellsWf, Bool.and_eq_true, decide_eq_true_eq] at h
    rw [readCells, if_neg (by omega)]
    exact ih h.2

theorem readCells_writeCells_same {size lo : Nat} (a : Nat) (v : Byte) {cs : List Host.Cell}
    (h : cellsWf size lo cs = true) : readCells a (writeCells a v cs) = v := by
  induction cs generalizing lo with
  | nil => by_cases hv : v = unlistedByte <;> simp [writeCells, readCells, hv]
  | cons x rest ih =>
    obtain ⟨x, u⟩ := x
    have hx := h
    simp only [cellsWf, Bool.and_eq_true, decide_eq_true_eq] at h
    rw [writeCells]
    split
    · split
      · next hv => subst hv; exact readCells_below (size := size) (lo := x) (by simp [cellsWf, h]) (by omega)
      · simp [readCells]
    · split
      · split
        · next hv => subst hv; exact readCells_below h.2 (by omega)
        · simp [readCells]
      · rw [readCells, if_neg (by omega)]
        exact ih h.2

theorem readCells_writeCells_other {a b : Nat} (v : Byte) (hab : b ≠ a) (cs : List Host.Cell) :
    readCells b (writeCells a v cs) = readCells b cs := by
  induction cs with
  | nil => by_cases hv : v = unlistedByte <;> simp [writeCells, readCells, hv, hab.symm]
  | cons x rest ih =>
    obtain ⟨x, u⟩ := x
    rw [writeCells]
    split
    · split <;> simp [readCells, hab.symm]
    · split
      · next h => subst h; split <;> simp [readCells, hab.symm]
      · rw [readCells, readCells, ih]

theorem cellsWf_writeCells {size lo a : Nat} (v : Byte) {cs : List Host.Cell} (h : cellsWf size lo cs = true)
    (hlo : lo ≤ a) (ha : a < size) : cellsWf size lo (writeCells a v cs) = true := by
  induction cs generalizing lo with
  | nil => by_cases hv : v = unlistedByte <;> simp [writeCells, cellsWf, hv, hlo, ha]
  | cons x rest ih =>
    obtain ⟨x, u⟩ := x
    have hx := h
    simp only [cellsWf, Bool.and_eq_true, decide_eq_true_eq] at h
    rw [writeCells]
    split
    · split
      · exact hx
      · next hv =>
        simp only [cellsWf, Bool.and_eq_true, decide_eq_true_eq]
        exact ⟨⟨⟨hlo, ha⟩, hv⟩, ⟨⟨by omega, h.1.1.2⟩, h.1.2⟩, h.2⟩
    · split
      · split
        · exact cellsWf_mono h.2 (by omega)
        · next heq hv =>
          subst heq
          simp only [cellsWf, Bool.and_eq_true, decide_eq_true_eq]
          exact ⟨⟨⟨hlo, ha⟩, hv⟩, h.2⟩
      · simp only [cellsWf, Bool.and_eq_true, decide_eq_true_eq]
        exact ⟨h.1, ih h.2 (by omega)⟩

theorem cellsWf_imageCells {size : Nat} {image : List Byte} {a : Nat} (h : a + image.length ≤ size) :
    cellsWf size a (imageCells a image) = true := by
  induction image generalizing a with
  | nil => rfl
  | cons v rest ih =>
    simp only [List.length_cons] at h
    have hr := ih (a := a + 1) (by omega)
    rw [imageCells]
    split
    · exact cellsWf_mono hr (by omega)
    · next hv =>
      simp only [cellsWf, Bool.and_eq_true, decide_eq_true_eq]
      exact ⟨⟨⟨Nat.le_refl a, by omega⟩, hv⟩, hr⟩

theorem readCells_imageCells_below {image : List Byte} {a b : Nat} (h : b < a) :
    readCells b (imageCells a image) = unlistedByte := by
  induction image generalizing a with
  | nil => rfl
  | cons v rest ih =>
    rw [imageCells]
    split
    · exact ih (by omega)
    · rw [readCells, if_neg (by omega)]
      exact ih (by omega)

theorem readCells_imageCells (image : List Byte) (a i : Nat) :
    readCells (a + i) (imageCells a image) = byteAt image i := by
  induction image generalizing a i with
  | nil => simp [imageCells, readCells, byteAt, unlistedByte]
  | cons v rest ih =>
    have hr : ∀ j, readCells (a + (j + 1)) (imageCells (a + 1) rest) = byteAt rest j := by
      intro j
      have := ih (a + 1) j
      rwa [show a + 1 + j = a + (j + 1) by omega] at this
    rw [imageCells]
    cases i with
    | zero =>
      split
      · next hv => rw [readCells_imageCells_below (by omega), hv]; rfl
      · simp [readCells, byteAt]
    | succ j =>
      split
      · rw [hr j]; rfl
      · rw [readCells, if_neg (by omega), hr j]; rfl

/-! ### Buffers -/

@[simp] theorem Memory.set_size (m : Memory) (a : Nat) (v : Byte) : (m.set a v).size = m.size := by
  unfold Memory.set
  split <;> rfl

theorem Memory.get_set_same {m : Memory} {a : Nat} (v : Byte) (hm : m.wf = true) (ha : a < m.size) :
    (m.set a v).get a = v := by
  simp only [Memory.set, if_pos ha, Memory.get]
  exact readCells_writeCells_same a v hm

theorem Memory.get_set_other {a b : Nat} (m : Memory) (v : Byte) (hab : b ≠ a) : (m.set a v).get b = m.get b := by
  unfold Memory.set
  split
  · exact readCells_writeCells_other v hab m.cells
  · rfl

/-- The one operation that changes a buffer keeps the canonical form. -/
theorem Memory.wf_set {m : Memory} (a : Nat) (v : Byte) (hm : m.wf = true) : (m.set a v).wf = true := by
  unfold Memory.set
  split
  · next ha => exact cellsWf_writeCells v hm (Nat.zero_le a) ha
  · exact hm

/-- An address outside a canonical buffer lists nothing. -/
theorem Memory.get_beyond {m : Memory} {a : Nat} (hm : m.wf = true) (ha : m.size ≤ a) : m.get a = unlistedByte :=
  readCells_beyond hm ha

@[simp] theorem Memory.ofImage_size (size : Nat) (image : List Byte) : (Memory.ofImage size image).size = size := rfl

theorem Memory.wf_ofImage {size : Nat} {image : List Byte} (h : image.length ≤ size) :
    (Memory.ofImage size image).wf = true :=
  cellsWf_imageCells (by simpa using h)

theorem Memory.get_ofImage (size : Nat) (image : List Byte) (a : Nat) :
    (Memory.ofImage size image).get a = byteAt image a := by
  have := readCells_imageCells image 0 a
  rwa [Nat.zero_add] at this

@[simp] theorem placeWord_size (m : Memory) (a nbits w : Nat) : (placeWord m a nbits w).size = m.size := by
  simp [placeWord]

theorem wf_placeWord {m : Memory} (a nbits w : Nat) (hm : m.wf = true) : (placeWord m a nbits w).wf = true :=
  Memory.wf_set _ _ (Memory.wf_set _ _ (Memory.wf_set _ _ hm))

theorem reset_mem_wf : State.reset.mem.wf = true := rfl

theorem reset_stack_wf : State.reset.stack.wf = true := rfl

end Sys2Proof.Machine
end

