-- ==== Sys2Proof/Laws/State.lean ====
section
/-! SUPPORT. One lemma per field per update of State, so that no later proof unfolds a record update. -/

namespace Sys2Proof.Machine

/-! ### `setReg` with a named register -/

@[simp] theorem State.setReg_eq_a (s : State) (v : Byte) : s.setReg .a v = { s with a := v } := rfl
@[simp] theorem State.setReg_eq_b (s : State) (v : Byte) : s.setReg .b v = { s with b := v } := rfl
@[simp] theorem State.setReg_eq_c (s : State) (v : Byte) : s.setReg .c v = { s with c := v } := rfl
@[simp] theorem State.setReg_eq_d (s : State) (v : Byte) : s.setReg .d v = { s with d := v } := rfl
@[simp] theorem State.setReg_eq_e (s : State) (v : Byte) : s.setReg .e v = { s with e := v } := rfl
@[simp] theorem State.setReg_eq_h (s : State) (v : Byte) : s.setReg .h v = { s with h := v } := rfl
@[simp] theorem State.setReg_eq_l (s : State) (v : Byte) : s.setReg .l v = { s with l := v } := rfl
@[simp] theorem State.setReg_eq_f (s : State) (v : Byte) : s.setReg .f v = { s with f := v } := rfl

/-! ### `reg` of a named register -/

@[simp] theorem State.reg_a (s : State) : s.reg .a = s.a := rfl
@[simp] theorem State.reg_b (s : State) : s.reg .b = s.b := rfl
@[simp] theorem State.reg_c (s : State) : s.reg .c = s.c := rfl
@[simp] theorem State.reg_d (s : State) : s.reg .d = s.d := rfl
@[simp] theorem State.reg_e (s : State) : s.reg .e = s.e := rfl
@[simp] theorem State.reg_h (s : State) : s.reg .h = s.h := rfl
@[simp] theorem State.reg_l (s : State) : s.reg .l = s.l := rfl
@[simp] theorem State.reg_f (s : State) : s.reg .f = s.f := rfl

/-! ### `setReg` and `reg` with any register -/

theorem State.reg_setReg (s : State) (r q : Reg) (v : Byte) :
    (s.setReg r v).reg q = if q = r then v else s.reg q := by
  cases r <;> cases q <;> rfl

@[simp] theorem State.setReg_pc (s : State) (r : Reg) (v : Byte) : (s.setReg r v).pc = s.pc := by cases r <;> rfl
@[simp] theorem State.setReg_sp (s : State) (r : Reg) (v : Byte) : (s.setReg r v).sp = s.sp := by cases r <;> rfl
@[simp] theorem State.setReg_mem (s : State) (r : Reg) (v : Byte) : (s.setReg r v).mem = s.mem := by cases r <;> rfl
@[simp] theorem State.setReg_stack (s : State) (r : Reg) (v : Byte) : (s.setReg r v).stack = s.stack := by
  cases r <;> rfl
@[simp] theorem State.setReg_run (s : State) (r : Reg) (v : Byte) : (s.setReg r v).run = s.run := by cases r <;> rfl

/-! ### `setPc` and `setSp` -/

@[simp] theorem State.setPc_pc (s : State) (w : Word) : (s.setPc w).pc = w := rfl
@[simp] theorem State.setPc_sp (s : State) (w : Word) : (s.setPc w).sp = s.sp := rfl
@[simp] theorem State.setPc_mem (s : State) (w : Word) : (s.setPc w).mem = s.mem := rfl
@[simp] theorem State.setPc_stack (s : State) (w : Word) : (s.setPc w).stack = s.stack := rfl
@[simp] theorem State.setPc_run (s : State) (w : Word) : (s.setPc w).run = s.run := rfl
@[simp] theorem State.setPc_reg (s : State) (w : Word) (r : Reg) : (s.setPc w).reg r = s.reg r := by cases r <;> rfl
@[simp] theorem State.setSp_pc (s : State) (w : Word) : (s.setSp w).pc = s.pc := rfl
@[simp] theorem State.setSp_sp (s : State) (w : Word) : (s.setSp w).sp = w := rfl
@[simp] theorem State.setSp_mem (s : State) (w : Word) : (s.setSp w).mem = s.mem := rfl
@[simp] theorem State.setSp_stack (s : State) (w : Word) : (s.setSp w).stack = s.stack := rfl
@[simp] theorem State.setSp_run (s : State) (w : Word) : (s.setSp w).run = s.run := rfl
@[simp] theorem State.setSp_reg (s : State) (w : Word) (r : Reg) : (s.setSp w).reg r = s.reg r := by cases r <;> rfl

/-! ### `setFlagBy`, `setPair` and the ALU write-backs, as one record update each -/

@[simp] theorem State.setFlagBy_eq (L : FlagLayout) (s : State) (k : Flag) (b : Bool) :
    s.setFlagBy L k b = { s with f := setFlagBit L k b s.f } := rfl

@[simp] theorem State.setPair_bc (s : State) (w : Word) :
    s.setPair .bc w = { s with b := hiByte w, c := loByte w } := rfl
@[simp] theorem State.setPair_de (s : State) (w : Word) :
    s.setPair .de w = { s with d := hiByte w, e := loByte w } := rfl
@[simp] theorem State.setPair_hl (s : State) (w : Word) :
    s.setPair .hl w = { s with h := hiByte w, l := loByte w } := rfl

@[simp] theorem State.pair_bc (s : State) : s.pair .bc = pairWord s.b s.c := rfl
@[simp] theorem State.pair_de (s : State) : s.pair .de = pairWord s.d s.e := rfl
@[simp] theorem State.pair_hl (s : State) : s.pair .hl = pairWord s.h s.l := rfl

/-- The flag byte that an 8-bit ALU instruction leaves. -/
abbrev alu8Flags (L : FlagLayout) (x : Alu8) (n : Bool) (f : Byte) : Byte :=
  setFlagBit L .c x.c (setFlagBit L .h x.h (setFlagBit L .n n (setFlagBit L .z x.z f)))

/-- The flag byte that the 16-bit ALU instruction leaves. -/
abbrev alu16Flags (L : FlagLayout) (x : Alu16) (f : Byte) : Byte :=
  setFlagBit L .c x.c (setFlagBit L .h x.h (setFlagBit L .z x.z f))

@[simp] theorem State.writeAlu8_eq (L : FlagLayout) (s : State) (x : Alu8) (n : Bool) :
    s.writeAlu8 L x n = { s with a := x.r, f := alu8Flags L x n s.f } := rfl

@[simp] theorem State.writeAlu16_eq (L : FlagLayout) (s : State) (x : Alu16) :
    s.writeAlu16 L x = { s with h := hiByte x.r, l := loByte x.r, f := alu16Flags L x s.f } := rfl

theorem State.flagBy_eq (L : FlagLayout) (s : State) (k : Flag) : s.flagBy L k = getFlagBit L k s.f := rfl

theorem State.flag_eq (s : State) (k : Flag) : s.flag k = getFlagBit flagLayout k s.f := rfl

end Sys2Proof.Machine
end

