-- ==== Sys2Proof/Laws/Ops.lean ====
section
/-! SUPPORT. For each shared operation, once, everything it can do: it goes on with the rest of the instruction, or it
raises with the reason and the state the spec gives. -/

namespace Sys2Proof.Machine

@[simp] theorem raise_eq (f : Fault) (s : State) : raise f s = .next { s with run := .halted f } := rfl

/-! ### Program counter -/

theorem advancePc_cases (n : Nat) (s : State) :
    (s.pc.toNat + n ≤ 0xFFFF ∧ advancePc n s = .next (s.setPc (BitVec.ofNat 16 (s.pc.toNat + n)))) ∨
    (0xFFFF < s.pc.toNat + n ∧ advancePc n s = raise (.pcOutOfRange (s.pc.toNat + n)) s) := by
  unfold advancePc
  split
  · right; exact ⟨by omega, rfl⟩
  · left; exact ⟨by omega, rfl⟩

theorem advancePc_next {n : Nat} {s : State} (h : s.pc.toNat + n ≤ 0xFFFF) :
    advancePc n s = .next (s.setPc (BitVec.ofNat 16 (s.pc.toNat + n))) := by
  rw [advancePc, if_neg (by omega)]

theorem advancePc_raise {n : Nat} {s : State} (h : 0xFFFF < s.pc.toNat + n) :
    advancePc n s = raise (.pcOutOfRange (s.pc.toNat + n)) s := by
  rw [advancePc, if_pos h]

theorem returnAddress_next {n : Nat} {s : State} (h : s.pc.toNat + n ≤ 0xFFFF) (k : Word → Result) :
    returnAddress n s k = k (BitVec.ofNat 16 (s.pc.toNat + n)) := by
  rw [returnAddress, if_neg (by omega)]

theorem returnAddress_raise {n : Nat} {s : State} (h : 0xFFFF < s.pc.toNat + n) (k : Word → Result) :
    returnAddress n s k = raise (.pcOutOfRange (s.pc.toNat + n)) s := by
  rw [returnAddress, if_pos h]

theorem jump_eq (target : Word) (s : State) : jump target s = .next (s.setPc target) := rfl

/-! ### Memory -/

theorem memAccess_next {addr : Int} {s : State} (h : s.mem.inBounds addr) (k : Result) : memAccess addr s k = k := by
  rw [memAccess, if_pos h]

theorem memAccess_raise {addr : Int} {s : State} (h : ¬ s.mem.inBounds addr) (k : Result) :
    memAccess addr s k = raise (.memOutOfBounds addr) s := by
  rw [memAccess, if_neg h]

theorem memRead_next {addr : Int} {s : State} (h : s.mem.inBounds addr) (k : Byte → Result) :
    memRead addr s k = k (s.mem.get addr.toNat) :=
  memAccess_next h _

theorem memRead_raise {addr : Int} {s : State} (h : ¬ s.mem.inBounds addr) (k : Byte → Result) :
    memRead addr s k = raise (.memOutOfBounds addr) s :=
  memAccess_raise h _

theorem memWrite_next {addr : Int} {s : State} (v : Byte) (h : s.mem.inBounds addr) (k : State → Result) :
    memWrite addr v s k = k { s with mem := s.mem.set addr.toNat v } :=
  memAccess_next h _

theorem memWrite_raise {addr : Int} {s : State} (v : Byte) (h : ¬ s.mem.inBounds addr) (k : State → Result) :
    memWrite addr v s k = raise (.memOutOfBounds addr) s :=
  memAccess_raise h _

/-! ### Stack -/

theorem stackAccess_next {idx : Int} {s : State} (h : s.stack.inBounds idx) (k : Result) : stackAccess idx s k = k := by
  rw [stackAccess, if_pos h]

theorem stackAccess_raise {idx : Int} {s : State} (h : ¬ s.stack.inBounds idx) (k : Result) :
    stackAccess idx s k = raise (.stackOutOfBounds idx) s := by
  rw [stackAccess, if_neg h]

theorem stackRead_next {idx : Int} {s : State} (h : s.stack.inBounds idx) (k : Byte → Result) :
    stackRead idx s k = k (s.stack.get idx.toNat) :=
  stackAccess_next h _

theorem stackRead_raise {idx : Int} {s : State} (h : ¬ s.stack.inBounds idx) (k : Byte → Result) :
    stackRead idx s k = raise (.stackOutOfBounds idx) s :=
  stackAccess_raise h _

theorem stackWrite_next {idx : Int} {s : State} (v : Byte) (h : s.stack.inBounds idx) (k : State → Result) :
    stackWrite idx v s k = k { s with stack := s.stack.set idx.toNat v } :=
  stackAccess_next h _

theorem stackWrite_raise {idx : Int} {s : State} (v : Byte) (h : ¬ s.stack.inBounds idx) (k : State → Result) :
    stackWrite idx v s k = raise (.stackOutOfBounds idx) s :=
  stackAccess_raise h _

/-! ### Push -/

/-- The state after a push of one byte that does not raise. -/
def pushed8 (v : Byte) (s : State) : State :=
  { s with sp := BitVec.ofNat 16 (s.sp.toNat - 1), stack := s.stack.set (s.sp.toNat - 1) v }

/-- The state after a push of two bytes that does not raise. -/
def pushed16 (w : Word) (s : State) : State := pushed8 (loByte w) (pushed8 (hiByte w) s)

theorem ofInt_sub_one {n : Nat} (h : 1 ≤ n) : BitVec.ofInt 16 ((n : Int) - 1) = BitVec.ofNat 16 (n - 1) := by
  rw [show (n : Int) - 1 = ((n - 1 : Nat) : Int) by omega]
  rfl

/-- A push of one byte goes on, or raises with `sp = 0` unchanged, or raises after the pre-decrement. -/
theorem push8_cases (v : Byte) (s : State) (k : State → Result) :
    (1 ≤ s.sp.toNat ∧ s.sp.toNat - 1 < s.stack.size ∧ push8 v s k = k (pushed8 v s)) ∨
    (s.sp.toNat = 0 ∧ push8 v s k = raise (.stackOutOfBounds (-1)) s) ∨
    (1 ≤ s.sp.toNat ∧ s.stack.size ≤ s.sp.toNat - 1 ∧
      push8 v s k = raise (.stackOutOfBounds ((s.sp.toNat : Int) - 1))
        (s.setSp (BitVec.ofNat 16 (s.sp.toNat - 1)))) := by
  by_cases h0 : s.sp.toNat = 0
  · right; left
    refine ⟨h0, ?_⟩
    simp [push8, h0]
  · have h1 : 1 ≤ s.sp.toNat := by omega
    have ht : ¬ ((s.sp.toNat : Int) - 1 < 0) := by omega
    by_cases hb : s.sp.toNat - 1 < s.stack.size
    · left
      refine ⟨h1, hb, ?_⟩
      simp only [push8, if_neg ht, ofInt_sub_one h1]
      rw [stackWrite_next v ⟨by omega, by simp only [State.setSp_stack]; omega⟩]
      have hn : ((s.sp.toNat : Int) - 1).toNat = s.sp.toNat - 1 := by omega
      rw [hn]
      rfl
    · right; right
      refine ⟨h1, by omega, ?_⟩
      simp only [push8, if_neg ht, ofInt_sub_one h1]
      exact stackWrite_raise v (by simp only [State.setSp_stack, Memory.inBounds]; omega) k

@[simp] theorem pushed8_pc (v : Byte) (s : State) : (pushed8 v s).pc = s.pc := rfl
@[simp] theorem pushed8_mem (v : Byte) (s : State) : (pushed8 v s).mem = s.mem := rfl
@[simp] theorem pushed8_run (v : Byte) (s : State) : (pushed8 v s).run = s.run := rfl
@[simp] theorem pushed8_stack_size (v : Byte) (s : State) : (pushed8 v s).stack.size = s.stack.size := by
  simp [pushed8]
@[simp] theorem pushed16_pc (w : Word) (s : State) : (pushed16 w s).pc = s.pc := rfl
@[simp] theorem pushed16_mem (w : Word) (s : State) : (pushed16 w s).mem = s.mem := rfl
@[simp] theorem pushed16_run (w : Word) (s : State) : (pushed16 w s).run = s.run := rfl
@[simp] theorem pushed16_stack_size (w : Word) (s : State) : (pushed16 w s).stack.size = s.stack.size := by
  simp [pushed16]
@[simp] theorem pushed8_reg (v : Byte) (s : State) (r : Reg) : (pushed8 v s).reg r = s.reg r := by cases r <;> rfl
@[simp] theorem pushed16_reg (w : Word) (s : State) (r : Reg) : (pushed16 w s).reg r = s.reg r := by cases r <;> rfl

theorem pushed8_sp_toNat (v : Byte) (s : State) : (pushed8 v s).sp.toNat = s.sp.toNat - 1 := by
  have := s.sp.isLt
  simp only [pushed8, BitVec.toNat_ofNat]
  omega

theorem pushed16_sp_toNat (w : Word) (s : State) : (pushed16 w s).sp.toNat = s.sp.toNat - 2 := by
  rw [pushed16, pushed8_sp_toNat, pushed8_sp_toNat]
  omega

/-- A push of two bytes that fits goes on. -/
theorem push16_next {w : Word} {s : State} (h2 : 2 ≤ s.sp.toNat) (hs : s.sp.toNat ≤ s.stack.size)
    (k : State → Result) : push16 w s k = k (pushed16 w s) := by
  rw [push16]
  rcases push8_cases (hiByte w) s (fun s => push8 (loByte w) s k) with ⟨-, -, h⟩ | ⟨h, -⟩ | ⟨-, h, -⟩
  · rw [h]
    rcases push8_cases (loByte w) (pushed8 (hiByte w) s) k with ⟨-, -, h⟩ | ⟨h, -⟩ | ⟨-, h, -⟩
    · exact h
    · rw [pushed8_sp_toNat] at h; omega
    · rw [pushed8_sp_toNat, pushed8_stack_size] at h; omega
  · omega
  · omega

/-- A push of two bytes goes on, or raises on the first byte, or raises on the second after the first is written. -/
theorem push16_cases (w : Word) (s : State) (k : State → Result) :
    (2 ≤ s.sp.toNat ∧ s.sp.toNat ≤ s.stack.size ∧ push16 w s k = k (pushed16 w s)) ∨
    (s.sp.toNat = 0 ∧ push16 w s k = raise (.stackOutOfBounds (-1)) s) ∨
    (1 ≤ s.sp.toNat ∧ s.stack.size ≤ s.sp.toNat - 1 ∧
      push16 w s k = raise (.stackOutOfBounds ((s.sp.toNat : Int) - 1))
        (s.setSp (BitVec.ofNat 16 (s.sp.toNat - 1)))) ∨
    (s.sp.toNat = 1 ∧ 1 ≤ s.stack.size ∧
      push16 w s k = raise (.stackOutOfBounds (-1)) (pushed8 (hiByte w) s)) := by
  rcases push8_cases (hiByte w) s (fun s => push8 (loByte w) s k) with ⟨h1, hb, h⟩ | ⟨h0, h⟩ | ⟨h1, hb, h⟩
  · by_cases h2 : 2 ≤ s.sp.toNat
    · exact .inl ⟨h2, by omega, push16_next h2 (by omega) k⟩
    · right; right; right
      refine ⟨by omega, by omega, ?_⟩
      rw [push16, h]
      rcases push8_cases (loByte w) (pushed8 (hiByte w) s) k with ⟨h', -⟩ | ⟨-, h'⟩ | ⟨h', -⟩
      · rw [pushed8_sp_toNat] at h'; omega
      · exact h'
      · rw [pushed8_sp_toNat] at h'; omega
  · exact .inr (.inl ⟨h0, h⟩)
  · exact .inr (.inr (.inl ⟨h1, hb, h⟩))

theorem pushed8_stack_wf {v : Byte} {s : State} (h : s.stack.wf = true) : (pushed8 v s).stack.wf = true :=
  Memory.wf_set _ _ h

theorem pushed16_stack_wf {w : Word} {s : State} (h : s.stack.wf = true) : (pushed16 w s).stack.wf = true :=
  pushed8_stack_wf (pushed8_stack_wf h)

/-- The Stack after a push of two bytes: high byte at `sp - 1`, low byte at `sp - 2`, every other byte as before. -/
theorem pushed16_stack_get {w : Word} {s : State} (hwf : s.stack.wf = true) (h2 : 2 ≤ s.sp.toNat)
    (hs : s.sp.toNat ≤ s.stack.size) (a : Nat) :
    (pushed16 w s).stack.get a =
      if a = s.sp.toNat - 2 then loByte w else if a = s.sp.toNat - 1 then hiByte w else s.stack.get a := by
  have hsp : (pushed8 (hiByte w) s).sp.toNat = s.sp.toNat - 1 := pushed8_sp_toNat _ _
  have e2 : s.sp.toNat - 1 - 1 = s.sp.toNat - 2 := by omega
  rw [pushed16]
  show ((pushed8 (hiByte w) s).stack.set ((pushed8 (hiByte w) s).sp.toNat - 1) (loByte w)).get a = _
  rw [hsp, e2]
  split
  · next ha =>
    subst ha
    exact Memory.get_set_same _ (pushed8_stack_wf hwf) (by rw [pushed8_stack_size]; omega)
  · next ha =>
    rw [Memory.get_set_other _ _ ha]
    show (s.stack.set (s.sp.toNat - 1) (hiByte w)).get a = _
    split
    · next ha' => subst ha'; exact Memory.get_set_same _ hwf (by omega)
    · next ha' => exact Memory.get_set_other _ _ ha'

/-- Other Stack bytes are untouched even where the buffer is in no canonical form. -/
theorem pushed16_stack_get_other {w : Word} {s : State} {a : Nat} (h1 : a ≠ s.sp.toNat - 1)
    (h2 : a ≠ s.sp.toNat - 2) : (pushed16 w s).stack.get a = s.stack.get a := by
  have e2 : (pushed8 (hiByte w) s).sp.toNat - 1 = s.sp.toNat - 2 := by rw [pushed8_sp_toNat]; omega
  rw [pushed16]
  show ((pushed8 (hiByte w) s).stack.set ((pushed8 (hiByte w) s).sp.toNat - 1) (loByte w)).get a = _
  rw [e2, Memory.get_set_other _ _ h2]
  exact Memory.get_set_other _ _ h1

end Sys2Proof.Machine
end

