-- ==== Sys2Proof/Laws/Exec.lean ====
section
/-! SUPPORT. What executing an instruction can do, once for all thirteen: it retires in one state, or it halts with the
reason of R186's list and leaves Memory, `D`, `E`, `pc` and the unused bits of `F` alone. -/

namespace Sys2Proof.Machine

open Sys2Proof.Safety

/-- The state in which an instruction retires, under given parameters. -/
def retiredFor (I : Implementation) (i : Instr) (s : State) : State :=
  match i with
  | .nop => { s with pc := BitVec.ofNat 16 (s.pc.toNat + 1) }
  | .jpNn nn => { s with pc := nn }
  | .incB => { s with b := inc8 s.b, pc := BitVec.ofNat 16 (s.pc.toNat + 1) }
  | .ldABc _ _ => { s with a := s.mem.get (pairWord s.b s.c).toNat, pc := BitVec.ofNat 16 (s.pc.toNat + 3) }
  | .ldHlNn hh ll => { s with h := hh, l := ll, pc := BitVec.ofNat 16 (s.pc.toNat + 3) }
  | .callNn nn => { pushed16 (BitVec.ofNat 16 (s.pc.toNat + 3)) s with pc := nn }
  | .rst38 => { pushed16 (BitVec.ofNat 16 (s.pc.toNat + 1)) s with pc := I.rstVector }
  | .orB => { s with a := or8 s.a s.b, pc := BitVec.ofNat 16 (s.pc.toNat + 1) }
  | .subN n =>
    { s with a := (sub8 s.a n).r, f := alu8Flags I.flags (sub8 s.a n) true s.f, pc := BitVec.ofNat 16 (s.pc.toNat + 2) }
  | .djnzE e =>
    { s with
      b := dec8 s.b
      pc := BitVec.ofNat 16 (if dec8 s.b ≠ 0#8 then s.pc.toNat + (2 + e.toNat) else s.pc.toNat + 2) }
  | .addAHl =>
    let x := add8 s.a (s.mem.get (pairWord s.h s.l).toNat)
    { s with a := x.r, f := alu8Flags I.flags x false s.f, pc := BitVec.ofNat 16 (s.pc.toNat + 1) }
  | .addHlHl =>
    let x := dbl16 (pairWord s.h s.l)
    { s with h := hiByte x.r, l := loByte x.r, f := alu16Flags I.flags x s.f, pc := BitVec.ofNat 16 (s.pc.toNat + 1) }
  | .retPe => { s with pc := BitVec.ofNat 16 (s.pc.toNat + 1) }

/-- The state in which an instruction retires at the decided defaults. -/
abbrev retired (i : Instr) (s : State) : State := retiredFor decidedDefaults i s

@[simp] theorem decidedDefaults_opcodes : decidedDefaults.opcodes = opcodes := rfl
@[simp] theorem decidedDefaults_flags : decidedDefaults.flags = flagLayout := rfl
@[simp] theorem decidedDefaults_rstVector : decidedDefaults.rstVector = rstVector := rfl
theorem decidedDefaults_wf : decidedDefaults.wf = true := by decide

/-- `exec` is the machine at the decided defaults. -/
theorem exec_eq_execFor (i : Instr) (s : State) : exec i s = execFor decidedDefaults i s := by cases i <;> rfl

/-- What an instruction that halts has left alone, `u` being the state it raises in. -/
structure Partially (L : FlagLayout) (s u : State) : Prop where
  mem : u.mem = s.mem
  d : u.d = s.d
  e : u.e = s.e
  unused : u.f &&& unusedBits L = s.f &&& unusedBits L
  pc : u.pc = s.pc
  stack_size : u.stack.size = s.stack.size
  stack_wf : s.stack.wf = true → u.stack.wf = true
  sp_le : u.sp.toNat ≤ s.sp.toNat

theorem Partially.refl (L : FlagLayout) (s : State) : Partially L s s := ⟨rfl, rfl, rfl, rfl, rfl, rfl, id, Nat.le_refl _⟩

/-- How one instruction can end. -/
abbrev ExecEnds (I : Implementation) (i : Instr) (s : State) : Prop :=
  (haltCause i s = none ∧ execFor I i s = .next (retiredFor I i s)) ∨
  ∃ f u, haltCause i s = some f ∧ execFor I i s = .next { u with run := .halted f } ∧ Partially I.flags s u

/-! ### The causes of Safety beside the tests of the operations -/

theorem memCause_next {addr : Int} {s : State} (h : s.mem.inBounds addr) : memCause addr s = none := if_pos h

theorem memCause_raise {addr : Int} {s : State} (h : ¬ s.mem.inBounds addr) :
    memCause addr s = some (.memOutOfBounds addr) := if_neg h

theorem pcCause_next {n : Nat} {s : State} (h : s.pc.toNat + n ≤ 0xFFFF) : pcCause n s = none := if_pos h

theorem pcCause_raise {n : Nat} {s : State} (h : 0xFFFF < s.pc.toNat + n) :
    pcCause n s = some (.pcOutOfRange (s.pc.toNat + n)) := if_neg (by omega)

theorem dec8_eq_zero_iff (b : Byte) : dec8 b = 0#8 ↔ b = 1#8 := by
  constructor
  · intro h
    have := congrArg BitVec.toNat h
    simp only [dec8, BitVec.toNat_ofInt] at this
    apply BitVec.eq_of_toNat_eq
    have hb := b.isLt
    simp only [BitVec.toNat_ofNat] at this ⊢
    omega
  · rintro rfl; rfl

/-- A sequential instruction whose only test is the advance by `n`: `u` is the state it advances in. -/
theorem advance_ends {L : FlagLayout} {s u : State} (n : Nat) (hp : Partially L s u) :
    (pcCause n s = none ∧ advancePc n u = .next { u with pc := BitVec.ofNat 16 (s.pc.toNat + n) }) ∨
    ∃ f, pcCause n s = some f ∧ advancePc n u = .next { u with run := .halted f } ∧ Partially L s u := by
  rcases advancePc_cases n u with ⟨h, e⟩ | ⟨h, e⟩
  · rw [hp.pc] at h e
    exact .inl ⟨pcCause_next h, by rw [e]; rfl⟩
  · rw [hp.pc] at h e
    exact .inr ⟨_, pcCause_raise h, e, hp⟩

/-! ### The thirteen instructions -/

theorem execNop_ends (I : Implementation) (s : State) : ExecEnds I .nop s := by
  rcases advance_ends 1 (Partially.refl _ s) with ⟨hc, he⟩ | ⟨f, hc, he, hp⟩
  · exact .inl ⟨hc, he⟩
  · exact .inr ⟨f, s, hc, he, hp⟩

theorem execRetPe_ends (I : Implementation) (s : State) : ExecEnds I .retPe s := by
  rcases advance_ends 1 (Partially.refl _ s) with ⟨hc, he⟩ | ⟨f, hc, he, hp⟩
  · exact .inl ⟨hc, he⟩
  · exact .inr ⟨f, s, hc, he, hp⟩

theorem execIncB_ends (I : Implementation) (s : State) : ExecEnds I .incB s := by
  have hp : Partially I.flags s { s with b := inc8 s.b } := ⟨rfl, rfl, rfl, rfl, rfl, rfl, id, Nat.le_refl _⟩
  rcases advance_ends 1 hp with ⟨hc, he⟩ | ⟨f, hc, he, hp⟩
  · exact .inl ⟨hc, he⟩
  · exact .inr ⟨f, _, hc, he, hp⟩

theorem execOrB_ends (I : Implementation) (s : State) : ExecEnds I .orB s := by
  have hp : Partially I.flags s { s with a := or8 s.a s.b } := ⟨rfl, rfl, rfl, rfl, rfl, rfl, id, Nat.le_refl _⟩
  rcases advance_ends 1 hp with ⟨hc, he⟩ | ⟨f, hc, he, hp⟩
  · exact .inl ⟨hc, he⟩
  · exact .inr ⟨f, _, hc, he, hp⟩

theorem execAddHlHl_ends (I : Implementation) (s : State) : ExecEnds I .addHlHl s := by
  have hp : Partially I.flags s (s.writeAlu16 I.flags (dbl16 (pairWord s.h s.l))) :=
    ⟨rfl, rfl, rfl, by simp, rfl, rfl, id, Nat.le_refl _⟩
  rcases advance_ends 1 hp with ⟨hc, he⟩ | ⟨f, hc, he, hp⟩
  · exact .inl ⟨hc, he⟩
  · exact .inr ⟨f, _, hc, he, hp⟩

theorem execJpNn_ends (I : Implementation) (nn : Word) (s : State) : ExecEnds I (.jpNn nn) s := by
  show _ ∨ _
  simp only [haltCause, execFor, execJpNn, imm16LE, operandAccess, Nat.cast_one, Nat.cast_ofNat]
  by_cases h1 : s.mem.inBounds ((s.pc.toNat : Int) + 1)
  · rw [memAccess_next h1, memCause_next h1]
    by_cases h2 : s.mem.inBounds ((s.pc.toNat : Int) + 2)
    · rw [memAccess_next h2, memCause_next h2]
      exact .inl ⟨rfl, rfl⟩
    · rw [memAccess_raise h2, memCause_raise h2]
      exact .inr ⟨_, s, rfl, rfl, Partially.refl _ s⟩
  · rw [memAccess_raise h1, memCause_raise h1]
    exact .inr ⟨_, s, rfl, rfl, Partially.refl _ s⟩

theorem execLdHlNn_ends (I : Implementation) (hh ll : Byte) (s : State) : ExecEnds I (.ldHlNn hh ll) s := by
  show _ ∨ _
  simp only [haltCause, execFor, execLdHlNn, immHiLo, operandAccess, Nat.cast_one, Nat.cast_ofNat]
  by_cases h1 : s.mem.inBounds ((s.pc.toNat : Int) + 1)
  · rw [memAccess_next h1, memCause_next h1]
    by_cases h2 : s.mem.inBounds ((s.pc.toNat : Int) + 2)
    · rw [memAccess_next h2, memCause_next h2]
      have hp : Partially I.flags s { s with h := hh, l := ll } := ⟨rfl, rfl, rfl, rfl, rfl, rfl, id, Nat.le_refl _⟩
      rcases advance_ends 3 hp with ⟨hc, he⟩ | ⟨f, hc, he, hp⟩
      · exact .inl ⟨by rw [hc]; rfl, he⟩
      · exact .inr ⟨f, _, by rw [hc]; rfl, he, hp⟩
    · rw [memAccess_raise h2, memCause_raise h2]
      exact .inr ⟨_, s, rfl, rfl, Partially.refl _ s⟩
  · rw [memAccess_raise h1, memCause_raise h1]
    exact .inr ⟨_, s, rfl, rfl, Partially.refl _ s⟩

theorem execSubN_ends (I : Implementation) (n : Byte) (s : State) : ExecEnds I (.subN n) s := by
  show _ ∨ _
  simp only [haltCause, execFor, subImmediate, imm8, operandAccess, Nat.cast_one]
  by_cases h1 : s.mem.inBounds ((s.pc.toNat : Int) + 1)
  · rw [memAccess_next h1, memCause_next h1]
    have hp : Partially I.flags s (s.writeAlu8 I.flags (sub8 s.a n) true) := ⟨rfl, rfl, rfl, by simp, rfl, rfl, id, Nat.le_refl _⟩
    rcases advance_ends 2 hp with ⟨hc, he⟩ | ⟨f, hc, he, hp⟩
    · exact .inl ⟨by rw [hc]; rfl, he⟩
    · exact .inr ⟨f, _, by rw [hc]; rfl, he, hp⟩
  · rw [memAccess_raise h1, memCause_raise h1]
    exact .inr ⟨_, s, rfl, rfl, Partially.refl _ s⟩

theorem execLdABc_ends (I : Implementation) (x1 x2 : Byte) (s : State) : ExecEnds I (.ldABc x1 x2) s := by
  show _ ∨ _
  have ha : ((s.pair .bc).toNat : Int) = s.b.toNat * 256 + s.c.toNat := by
    rw [State.pair_bc, pairWord_toNat]; push_cast; ring
  simp only [haltCause, execFor, execLdABc, pairRead, ha]
  by_cases h1 : s.mem.inBounds (s.b.toNat * 256 + s.c.toNat)
  · rw [memRead_next h1, memCause_next h1, ← ha]
    have hp : Partially I.flags s (s.setReg .a (s.mem.get (pairWord s.b s.c).toNat)) :=
      ⟨rfl, rfl, rfl, rfl, rfl, rfl, id, Nat.le_refl _⟩
    rcases advance_ends 3 hp with ⟨hc, he⟩ | ⟨f, hc, he, hp⟩
    · exact .inl ⟨by rw [hc]; rfl, he⟩
    · exact .inr ⟨f, _, by rw [hc]; rfl, he, hp⟩
  · rw [memRead_raise h1, memCause_raise h1]
    exact .inr ⟨_, s, rfl, rfl, Partially.refl _ s⟩

theorem execAddAHl_ends (I : Implementation) (s : State) : ExecEnds I .addAHl s := by
  show _ ∨ _
  have ha : ((s.pair .hl).toNat : Int) = s.h.toNat * 256 + s.l.toNat := by
    rw [State.pair_hl, pairWord_toNat]; push_cast; ring
  simp only [haltCause, execFor, addMemory, pairRead, ha]
  by_cases h1 : s.mem.inBounds (s.h.toNat * 256 + s.l.toNat)
  · rw [memRead_next h1, memCause_next h1, ← ha]
    have hp : Partially I.flags s (s.writeAlu8 I.flags (add8 s.a (s.mem.get (pairWord s.h s.l).toNat)) false) :=
      ⟨rfl, rfl, rfl, by simp, rfl, rfl, id, Nat.le_refl _⟩
    rcases advance_ends 1 hp with ⟨hc, he⟩ | ⟨f, hc, he, hp⟩
    · exact .inl ⟨by rw [hc]; rfl, he⟩
    · exact .inr ⟨f, _, by rw [hc]; rfl, he, hp⟩
  · rw [memRead_raise h1, memCause_raise h1]
    exact .inr ⟨_, s, rfl, rfl, Partially.refl _ s⟩

theorem execDjnzE_ends (I : Implementation) (e : Byte) (s : State) : ExecEnds I (.djnzE e) s := by
  show _ ∨ _
  have hp : Partially I.flags s (s.setReg .b (dec8 s.b)) := ⟨rfl, rfl, rfl, rfl, rfl, rfl, id, Nat.le_refl _⟩
  simp only [haltCause, execFor, execDjnzE, imm8, operandAccess, Nat.cast_one, State.reg_b, retiredFor]
  by_cases hb : s.b = 1#8
  · have hz : dec8 s.b = 0#8 := (dec8_eq_zero_iff s.b).2 hb
    rw [if_pos hb, if_neg (by simp [hz]), if_neg (by simp [hz])]
    rcases advance_ends 2 hp with ⟨hc, he⟩ | ⟨f, hc, he, hp⟩
    · exact .inl ⟨hc, he⟩
    · exact .inr ⟨f, _, hc, he, hp⟩
  · have hz : dec8 s.b ≠ 0#8 := fun h => hb ((dec8_eq_zero_iff s.b).1 h)
    rw [if_neg hb, if_pos hz, if_pos hz]
    by_cases h1 : s.mem.inBounds ((s.pc.toNat : Int) + 1)
    · rw [memCause_next h1, memAccess_next (by simpa using h1)]
      rcases advance_ends (2 + e.toNat) hp with ⟨hc, he⟩ | ⟨f, hc, he, hp⟩
      · exact .inl ⟨by rw [hc]; rfl, he⟩
      · exact .inr ⟨f, _, by rw [hc]; rfl, he, hp⟩
    · rw [memCause_raise h1, memAccess_raise (by simpa using h1)]
      exact .inr ⟨_, _, rfl, rfl, hp⟩

/-- The two pushes of a call beside `pushCause`. -/
theorem push16_ends (L : FlagLayout) (w : Word) (s : State) (k : State → Result) :
    (pushCause s = none ∧ push16 w s k = k (pushed16 w s)) ∨
    ∃ f u, pushCause s = some f ∧ push16 w s k = .next { u with run := .halted f } ∧ Partially L s u := by
  rcases push16_cases w s k with ⟨h2, hs, e⟩ | ⟨h0, e⟩ | ⟨h1, hs, e⟩ | ⟨h1, hs, e⟩
  · left
    refine ⟨?_, e⟩
    rw [pushCause, if_neg (by omega), if_neg (by omega), if_neg (by omega)]
  · right
    exact ⟨_, s, by rw [pushCause, if_pos h0], e, Partially.refl _ s⟩
  · right
    refine ⟨_, _, by rw [pushCause, if_neg (by omega), if_pos hs], e, ⟨rfl, rfl, rfl, rfl, rfl, rfl, id, ?_⟩⟩
    have := s.sp.isLt
    simp only [State.setSp_sp, BitVec.toNat_ofNat]
    omega
  · right
    refine ⟨_, _, by rw [pushCause, if_neg (by omega), if_neg (by omega), if_pos h1], e,
      ⟨rfl, rfl, rfl, rfl, rfl, by simp, fun h => pushed8_stack_wf h, ?_⟩⟩
    rw [pushed8_sp_toNat]
    omega

theorem partially_pushed16 (L : FlagLayout) (w : Word) (s : State) : Partially L s (pushed16 w s) :=
  ⟨rfl, rfl, rfl, rfl, rfl, by simp, fun h => pushed16_stack_wf h, by rw [pushed16_sp_toNat]; omega⟩

theorem execRst38_ends (I : Implementation) (s : State) : ExecEnds I .rst38 s := by
  show _ ∨ _
  simp only [haltCause, execFor, restart]
  by_cases hpc : s.pc.toNat + 1 ≤ 0xFFFF
  · rw [pcCause_next hpc, returnAddress_next hpc]
    rcases push16_ends I.flags (BitVec.ofNat 16 (s.pc.toNat + 1)) s (fun s => jump I.rstVector s) with
      ⟨hc, he⟩ | ⟨f, u, hc, he, hp⟩
    · exact .inl ⟨by rw [hc]; rfl, he⟩
    · exact .inr ⟨f, u, by rw [hc]; rfl, he, hp⟩
  · rw [pcCause_raise (by omega), returnAddress_raise (by omega)]
    exact .inr ⟨_, s, rfl, rfl, Partially.refl _ s⟩

theorem execCallNn_ends (I : Implementation) (nn : Word) (s : State) : ExecEnds I (.callNn nn) s := by
  show _ ∨ _
  simp only [haltCause, execFor, execCallNn, imm16LE, operandAccess, Nat.cast_one, Nat.cast_ofNat]
  by_cases hpc : s.pc.toNat + 3 ≤ 0xFFFF
  · rw [pcCause_next hpc, returnAddress_next hpc]
    rcases push16_ends I.flags (BitVec.ofNat 16 (s.pc.toNat + 3)) s (fun s => memAccess ((s.pc.toNat : Int) + 1) s
        (memAccess ((s.pc.toNat : Int) + 2) s (jump nn s))) with ⟨hc, he⟩ | ⟨f, u, hc, he, hp⟩
    · rw [hc, he]
      have hp := partially_pushed16 I.flags (BitVec.ofNat 16 (s.pc.toNat + 3)) s
      simp only [pushed16_pc]
      by_cases h1 : s.mem.inBounds ((s.pc.toNat : Int) + 1)
      · rw [memAccess_next (by simpa using h1), memCause_next h1]
        by_cases h2 : s.mem.inBounds ((s.pc.toNat : Int) + 2)
        · rw [memAccess_next (by simpa using h2), memCause_next h2]
          exact .inl ⟨rfl, rfl⟩
        · rw [memAccess_raise (by simpa using h2), memCause_raise h2]
          exact .inr ⟨_, _, rfl, rfl, hp⟩
      · rw [memAccess_raise (by simpa using h1), memCause_raise h1]
        exact .inr ⟨_, _, rfl, rfl, hp⟩
    · exact .inr ⟨f, u, by rw [hc]; rfl, he, hp⟩
  · rw [pcCause_raise (by omega), returnAddress_raise (by omega)]
    exact .inr ⟨_, s, rfl, rfl, Partially.refl _ s⟩

/-- Every instruction retires in `retiredFor I i s` when it has no halt cause, and halts with its cause otherwise. -/
theorem execFor_ends (I : Implementation) (i : Instr) (s : State) : ExecEnds I i s := by
  cases i with
  | nop => exact execNop_ends I s
  | jpNn nn => exact execJpNn_ends I nn s
  | incB => exact execIncB_ends I s
  | ldABc x1 x2 => exact execLdABc_ends I x1 x2 s
  | ldHlNn hh ll => exact execLdHlNn_ends I hh ll s
  | callNn nn => exact execCallNn_ends I nn s
  | rst38 => exact execRst38_ends I s
  | orB => exact execOrB_ends I s
  | subN n => exact execSubN_ends I n s
  | djnzE e => exact execDjnzE_ends I e s
  | addAHl => exact execAddAHl_ends I s
  | addHlHl => exact execAddHlHl_ends I s
  | retPe => exact execRetPe_ends I s

/-- The same at the decided defaults. -/
theorem exec_ends (i : Instr) (s : State) :
    (haltCause i s = none ∧ exec i s = .next (retired i s)) ∨
    ∃ f u, haltCause i s = some f ∧ exec i s = .next { u with run := .halted f } ∧ Partially flagLayout s u := by
  rw [exec_eq_execFor]
  exact execFor_ends decidedDefaults i s

@[simp] theorem retiredFor_run (I : Implementation) (i : Instr) (s : State) : (retiredFor I i s).run = s.run := by
  cases i <;> rfl

@[simp] theorem retiredFor_mem (I : Implementation) (i : Instr) (s : State) : (retiredFor I i s).mem = s.mem := by
  cases i <;> rfl

/-- An instruction that leaves a running machine running retired. -/
theorem execFor_retires {I : Implementation} {i : Instr} {s t : State} (h : execFor I i s = .next t)
    (hrun : t.run = .running) : haltCause i s = none ∧ t = retiredFor I i s := by
  rcases execFor_ends I i s with ⟨hc, he⟩ | ⟨f, u, -, he, -⟩
  · rw [he] at h
    exact ⟨hc, by cases h; rfl⟩
  · rw [he] at h
    cases h
    cases hrun

theorem exec_retires {i : Instr} {s t : State} (h : exec i s = .next t) (hrun : t.run = .running) :
    haltCause i s = none ∧ t = retired i s :=
  execFor_retires (exec_eq_execFor i s ▸ h) hrun

end Sys2Proof.Machine
end

