-- ==== Sys2Proof/Laws/PerInstr.lean ====
section
/-! SUPPORT. Families of statements made per instruction (LAWS.json). `EncodedLength`: an instruction's encoding has the
length of its format, 1 to 3 bytes (spec/30_encoding.md R80, R84). -/

namespace Sys2Proof.Laws.EncodedLength

/-- The encoding is as long as the format says, under every opcode map. -/
def Statement (i : Instr) : Prop :=
  ∀ M : OpcodeMap, (encode M i).length = i.length ∧ 1 ≤ i.length ∧ i.length ≤ 3

theorem nop : Statement .nop := fun _ => by simp [encode, Instr.length]
theorem jpNn (nn : Word) : Statement (.jpNn nn) := fun _ => by simp [encode, Instr.length]
theorem incB : Statement .incB := fun _ => by simp [encode, Instr.length]
theorem ldABc (x1 x2 : Byte) : Statement (.ldABc x1 x2) := fun _ => by simp [encode, Instr.length]
theorem ldHlNn (hh ll : Byte) : Statement (.ldHlNn hh ll) := fun _ => by simp [encode, Instr.length]
theorem callNn (nn : Word) : Statement (.callNn nn) := fun _ => by simp [encode, Instr.length]
theorem rst38 : Statement .rst38 := fun _ => by simp [encode, Instr.length]
theorem orB : Statement .orB := fun _ => by simp [encode, Instr.length]
theorem subN (n : Byte) : Statement (.subN n) := fun _ => by simp [encode, Instr.length]
theorem djnzE (e : Byte) : Statement (.djnzE e) := fun _ => by simp [encode, Instr.length]
theorem addAHl : Statement .addAHl := fun _ => by simp [encode, Instr.length]
theorem addHlHl : Statement .addHlHl := fun _ => by simp [encode, Instr.length]
theorem retPe : Statement .retPe := fun _ => by simp [encode, Instr.length]

end Sys2Proof.Laws.EncodedLength
end

