-- ==== Sys2Proof/Laws/Step.lean ====
section
/-! SUPPORT. What a step can do: nothing when halted; otherwise a fetch fault, an unknown opcode, or the decoded
instruction. -/

namespace Sys2Proof.Machine

open Sys2Proof.Safety

/-- `step` is the machine at the decided defaults. -/
theorem step_eq_stepFor (s : State) : step s = stepFor decidedDefaults s := by
  cases hrun : s.run <;> simp [step, stepFor, hrun, exec_eq_execFor]

theorem stepFor_halted {I : Implementation} {s : State} {reason : Fault} (h : s.run = .halted reason) :
    stepFor I s = .fault reason := by
  rw [stepFor, h]

/-- A running machine whose `pc` is outside Memory. -/
theorem stepFor_fetch_raise {I : Implementation} {s : State} (hrun : s.run = .running)
    (h : ¬ s.mem.inBounds s.pc.toNat) :
    stepFor I s = .next { s with run := .halted (.memOutOfBounds s.pc.toNat) } := by
  rw [stepFor, hrun]
  show fetchDecode _ s _ = _
  rw [fetchDecode, memRead_raise h]
  rfl

theorem codeByte_zero (s : State) : s.mem.get ((s.pc.toNat : Int)).toNat = s.codeByte 0 := by
  simp [State.codeByte]

/-- A running machine with an unknown opcode at `pc`. -/
theorem stepFor_unknown {I : Implementation} {s : State} {r : Reject} (hrun : s.run = .running)
    (h : s.mem.inBounds s.pc.toNat) (hd : s.decodedBy I.opcodes = .error r) :
    stepFor I s = .next { s with run := .halted (.unknownOpcode (s.codeByte 0) s.pc) } := by
  rw [stepFor, hrun]
  show fetchDecode _ s _ = _
  rw [fetchDecode, memRead_next h, codeByte_zero]
  rw [State.decodedBy] at hd
  simp only [hd]
  rfl

/-- A running machine with an instruction at `pc`: the step is the instruction's execution. -/
theorem stepFor_exec {I : Implementation} {s : State} {i : Instr} (hrun : s.run = .running)
    (h : s.mem.inBounds s.pc.toNat) (hd : s.decodedBy I.opcodes = .ok i) : stepFor I s = execFor I i s := by
  rw [stepFor, hrun]
  show fetchDecode _ s _ = _
  rw [fetchDecode, memRead_next h, codeByte_zero]
  rw [State.decodedBy] at hd
  simp only [hd]

/-- What a step that answers a next state did. -/
theorem stepFor_cases {I : Implementation} {s t : State} (h : stepFor I s = .next t) :
    s.run = .running ∧
    ((∃ i, s.decodedBy I.opcodes = .ok i ∧ s.mem.inBounds s.pc.toNat ∧ execFor I i s = .next t) ∨
     (∃ f, t = { s with run := .halted f })) := by
  cases hrun : s.run with
  | halted reason => rw [stepFor_halted hrun] at h; cases h
  | running =>
    refine ⟨rfl, ?_⟩
    by_cases hb : s.mem.inBounds s.pc.toNat
    · cases hd : s.decodedBy I.opcodes with
      | ok i => exact .inl ⟨i, rfl, hb, by rw [← stepFor_exec hrun hb hd]; exact h⟩
      | error r =>
        rw [stepFor_unknown hrun hb hd] at h
        cases h
        exact .inr ⟨_, rfl⟩
    · rw [stepFor_fetch_raise hrun hb] at h
      cases h
      exact .inr ⟨_, rfl⟩

/-! ### The same at the decided defaults -/

theorem step_halted {s : State} {reason : Fault} (h : s.run = .halted reason) : step s = .fault reason := by
  rw [step_eq_stepFor, stepFor_halted h]

theorem step_fetch_raise {s : State} (hrun : s.run = .running) (h : ¬ s.mem.inBounds s.pc.toNat) :
    step s = .next { s with run := .halted (.memOutOfBounds s.pc.toNat) } := by
  rw [step_eq_stepFor, stepFor_fetch_raise hrun h]

theorem step_unknown {s : State} {r : Reject} (hrun : s.run = .running) (h : s.mem.inBounds s.pc.toNat)
    (hd : s.decoded = .error r) :
    step s = .next { s with run := .halted (.unknownOpcode (s.codeByte 0) s.pc) } := by
  rw [step_eq_stepFor, stepFor_unknown (I := decidedDefaults) hrun h hd]

theorem step_exec {s : State} {i : Instr} (hrun : s.run = .running) (h : s.mem.inBounds s.pc.toNat)
    (hd : s.decoded = .ok i) : step s = exec i s := by
  rw [step_eq_stepFor, exec_eq_execFor, stepFor_exec (I := decidedDefaults) hrun h hd]

theorem step_cases {s t : State} (h : step s = .next t) :
    s.run = .running ∧
    ((∃ i, s.decoded = .ok i ∧ s.mem.inBounds s.pc.toNat ∧ exec i s = .next t) ∨
     (∃ f, t = { s with run := .halted f })) := by
  rw [step_eq_stepFor] at h
  simp only [exec_eq_execFor]
  exact stepFor_cases (I := decidedDefaults) h

theorem fetched_eq_some {s : State} {i : Instr} (h : s.fetched = some i) :
    s.run = .running ∧ s.mem.inBounds s.pc.toNat ∧ s.decoded = .ok i := by
  unfold State.fetched at h
  split at h
  · next hb =>
    split at h
    · next j hd => cases h; exact ⟨hb.1, hb.2, hd⟩
    · cases h
  · cases h

/-- The host's placement: the stored bytes are what the next fetch decodes. -/
theorem decoded_withFetchWord {s : State} (nbits w : Nat) (hwf : s.mem.wf = true)
    (hpc : s.pc.toNat + 2 < s.mem.size) :
    (s.withFetchWord nbits w).decoded =
      decode opcodes (tableByte nbits w 0) (tableByte nbits w 1) (tableByte nbits w 2) := by
  have hw1 := Memory.wf_set (a := s.pc.toNat) (v := tableByte nbits w 0) hwf
  have hw2 := Memory.wf_set (a := s.pc.toNat + 1) (v := tableByte nbits w 1) hw1
  have h0 : (placeWord s.mem s.pc.toNat nbits w).get s.pc.toNat = tableByte nbits w 0 := by
    rw [placeWord, Memory.get_set_other _ _ (by omega), Memory.get_set_other _ _ (by omega),
      Memory.get_set_same _ hwf (by omega)]
  have h1 : (placeWord s.mem s.pc.toNat nbits w).get (s.pc.toNat + 1) = tableByte nbits w 1 := by
    rw [placeWord, Memory.get_set_other _ _ (by omega), Memory.get_set_same _ hw1 (by simp; omega)]
  have h2 : (placeWord s.mem s.pc.toNat nbits w).get (s.pc.toNat + 2) = tableByte nbits w 2 := by
    rw [placeWord, Memory.get_set_same _ hw2 (by simp; omega)]
  show decode opcodes ((placeWord s.mem s.pc.toNat nbits w).get s.pc.toNat)
    ((placeWord s.mem s.pc.toNat nbits w).get (s.pc.toNat + 1))
    ((placeWord s.mem s.pc.toNat nbits w).get (s.pc.toNat + 2)) = _
  rw [h0, h1, h2]

end Sys2Proof.Machine
end

