-- ==== Sys2Proof/Tests/Slice0.lean ====
section
/-! SUPPORT. The model's own tests. Expected results come from the worked examples S1 to S11 and the vectors V1 to V15 of
spec/95_test_vectors.md, words from the encodings of spec/30_encoding.md R81, R84, R89. The theorems named `witness_…` show that
the hypotheses of the statement of that name can be met, clause by clause, at the edges of their ranges. -/

namespace Sys2Proof.Tests

open Sys2Proof.Machine Sys2Proof.Safety

/-! ### Helpers -/

/-- A machine just reset (Stack of 16 bytes), with a Memory of `size` bytes, `pc` at `pc` and `bytes` placed there. -/
def loadedIn (size : Nat) (pc : Word) (bytes : List Byte) : State :=
  { State.reset with pc := pc, mem := { size := size, cells := imageCells pc.toNat bytes } }

/-- The same with the default Memory of 65536 bytes. -/
def loaded (pc : Word) (bytes : List Byte) : State := loadedIn 65536 pc bytes

/-- The state an outcome gives, if it is a next state. -/
def nextOf : Result → Option State
  | .next t => some t
  | .fault _ => none
  | .refused _ => none

/-- What is looked at of the state after one step. -/
def afterStep {α : Type} (s : State) (look : State → α) : Option α := (nextOf (step s)).map look

/-- What is looked at of the state after one instruction. -/
def afterExec {α : Type} (i : Instr) (s : State) (look : State → α) : Option α := (nextOf (exec i s)).map look

/-- The four flags, in the order Z N H C. -/
def flags (s : State) : Bool × Bool × Bool × Bool := (s.flag .z, s.flag .n, s.flag .h, s.flag .c)

/-- Other legal parameters: the opcodes of `NOP` and `JP nn` exchanged, the flags in the low nibble, the vector 0x0008. -/
def otherParameters : Implementation where
  opcodes := { opcodes with nop := 0xC3#8, jpNn := 0x00#8 }
  flags := { maskZ := 0x01#8, maskN := 0x02#8, maskH := 0x04#8, maskC := 0x08#8 }
  rstVector := 0x0008#16

/-- What is looked at of the state after one step of the machine with the other parameters. -/
def afterOtherStep {α : Type} (s : State) (look : State → α) : Option α := (nextOf (stepFor otherParameters s)).map look

/-! ### Well-formedness: each check refuses an ill-formed term -/

theorem test_wf_params_default : Config.params.wf = true := by decide
theorem test_wf_refuses_empty_memory : Params.wf { memSize := 0, image := [], stackSize := 16, startPc := 0 } = false := by decide
theorem test_wf_refuses_long_memory : Params.wf { memSize := 65537, image := [], stackSize := 16, startPc := 0 } = false := by decide
theorem test_wf_refuses_long_stack : Params.wf { memSize := 1, image := [], stackSize := 65536, startPc := 0 } = false := by decide
theorem test_wf_refuses_start_beyond_16_bits : Params.wf { memSize := 1, image := [], stackSize := 0, startPc := 65536 } = false := by
  decide
theorem test_wf_refuses_image_longer_than_memory :
    Params.wf { memSize := 1, image := [0#8, 0#8], stackSize := 0, startPc := 0 } = false := by decide
theorem test_wf_flag_layout : flagLayout.wf = true := by decide
theorem test_wf_refuses_two_bit_mask : FlagLayout.wf { flagLayout with maskZ := 0xC0#8 } = false := by decide
theorem test_wf_refuses_shared_mask : FlagLayout.wf { flagLayout with maskC := 0x20#8 } = false := by decide
theorem test_wf_opcodes : opcodes.wf = true := by decide
theorem test_wf_refuses_shared_opcode : OpcodeMap.wf { opcodes with retPe := 0x00#8 } = false := by decide
theorem test_wf_other_parameters : otherParameters.wf = true := by decide
theorem test_wf_refuses_illegal_implementation :
    Implementation.wf { otherParameters with flags := { flagLayout with maskC := 0x20#8 } } = false := by decide
theorem test_wf_refuses_listed_zero_byte : Memory.wf { size := 4, cells := [(1, 0#8)] } = false := by decide
theorem test_wf_refuses_unsorted_cells : Memory.wf { size := 4, cells := [(2, 1#8), (1, 1#8)] } = false := by decide
theorem test_wf_refuses_cell_beyond_the_end : Memory.wf { size := 4, cells := [(4, 1#8)] } = false := by decide

/-! ### Decoding: words written out from the encodings (R81, R84, R89) -/

theorem test_decode_NOP : decodeTableWord 8 0b00000000 = some .nop := by decide
/-- `C3 50 01`. -/
theorem test_decode_JP : decodeTableWord 24 0b00000001_01010000_11000011 = some (.jpNn 0x0150#16) := by decide
theorem test_decode_INC_B : decodeTableWord 8 0b00000100 = some .incB := by decide
/-- `0A 11 22`. -/
theorem test_decode_LD_A_BC : decodeTableWord 24 0b00100010_00010001_00001010 = some (.ldABc 0x11#8 0x22#8) := by decide
/-- `21 00 20`: `H` is the first byte. -/
theorem test_decode_LD_HL : decodeTableWord 24 0b00100000_00000000_00100001 = some (.ldHlNn 0x00#8 0x20#8) := by decide
/-- `CD 34 12`. -/
theorem test_decode_CALL : decodeTableWord 24 0b00010010_00110100_11001101 = some (.callNn 0x1234#16) := by decide
theorem test_decode_RST : decodeTableWord 8 0b11111111 = some .rst38 := by decide
theorem test_decode_OR_B : decodeTableWord 8 0b10110000 = some .orB := by decide
/-- `D6 40`. -/
theorem test_decode_SUB : decodeTableWord 16 0b01000000_11010110 = some (.subN 0x40#8) := by decide
/-- `10 80`. -/
theorem test_decode_DJNZ : decodeTableWord 16 0b10000000_00010000 = some (.djnzE 0x80#8) := by decide
theorem test_decode_ADD_A_HL : decodeTableWord 8 0b10000110 = some .addAHl := by decide
theorem test_decode_ADD_HL_HL : decodeTableWord 8 0b00101001 = some .addHlHl := by decide
theorem test_decode_RET_PE : decodeTableWord 8 0b11101000 = some .retPe := by decide
/-- A byte of no instruction (V14c). -/
theorem test_decode_refuses_unknown : decodeTableWord 8 0xC9 = none := by decide
theorem test_decode_refuses_truncated : decodeBytes opcodes [0xCD#8, 0x34#8] = .error (.truncated 0xCD#8) := rfl
theorem test_decode_refuses_nothing : decodeBytes opcodes [] = .error .noByte := rfl
/-- The listing `LD HL,0x205F` of R89: high byte first. -/
theorem test_encode_LD_HL : encode opcodes (.ldHlNn 0x20#8 0x5F#8) = [0x21#8, 0x20#8, 0x5F#8] := by decide
/-- The listing `CALL 0x1234` of R89: low byte first. -/
theorem test_encode_CALL : encode opcodes (.callNn 0x1234#16) = [0xCD#8, 0x34#8, 0x12#8] := by decide

/-! ### One step of each instruction, at the decided parameters -/

/-- V1b. -/
theorem test_NOP_keeps_registers : afterStep { loaded 0x0100#16 [0x00#8] with a := 0x12#8, f := 0xFF#8 }
    (fun t => (t.pc, t.a, t.f)) = some (0x0101#16, 0x12#8, 0xFF#8) := by decide
/-- V1c. -/
theorem test_NOP_at_the_top_halts : afterStep (loaded 0xFFFF#16 [0x00#8])
    (fun t => (t.pc, t.run)) = some (0xFFFF#16, .halted (.pcOutOfRange 0x10000)) := by decide
/-- V2a: no loop increment. -/
theorem test_JP : afterStep (loaded 0x0100#16 [0xC3#8, 0x50#8, 0x01#8]) (fun t => t.pc) = some 0x0150#16 := by decide
/-- V2d. -/
theorem test_JP_operand_beyond_memory : afterStep (loaded 0xFFFE#16 [0xC3#8, 0x34#8])
    (fun t => t.run) = some (.halted (.memOutOfBounds 0x10000)) := by decide
/-- V3a, S2. -/
theorem test_INC_B_wraps : afterStep { loaded 0x0100#16 [0x04#8] with b := 0xFF#8 }
    (fun t => (t.b, t.f, t.pc)) = some (0x00#8, 0x00#8, 0x0101#16) := by decide
/-- V3b: the flags stay. -/
theorem test_INC_B_keeps_flags : afterStep { loaded 0x0100#16 [0x04#8] with b := 0x0F#8, f := 0xF0#8 }
    (fun t => (t.b, t.f)) = some (0x10#8, 0xF0#8) := by decide
/-- V4b: `BC` at the instruction's own pad byte. -/
theorem test_LD_A_BC : afterStep { loaded 0x0100#16 [0x0A#8, 0x11#8, 0x22#8] with b := 0x01#8, c := 0x01#8 }
    (fun t => (t.a, t.pc)) = some (0x11#8, 0x0103#16) := by decide
/-- V4d: the pad bytes lie outside Memory and are not read. -/
theorem test_LD_A_BC_skips_unread : afterStep { loadedIn 0x100 0x00FF#16 [0x0A#8] with c := 0xFF#8 }
    (fun t => (t.a, t.pc, t.run)) = some (0x0A#8, 0x0102#16, .running) := by decide
/-- V5b: high byte first. -/
theorem test_LD_HL : afterStep (loaded 0x0003#16 [0x21#8, 0x00#8, 0x20#8])
    (fun t => (t.h, t.l, t.pc)) = some (0x00#8, 0x20#8, 0x0006#16) := by decide
/-- V5c. -/
theorem test_LD_HL_operand_beyond_memory : afterStep (loadedIn 0xFF 0x00FD#16 [0x21#8, 0x20#8])
    (fun t => t.run) = some (.halted (.memOutOfBounds 0xFF)) := by decide
/-- S4 with `S = 16`. -/
theorem test_CALL : afterStep (loaded 0x2000#16 [0xCD#8, 0x34#8, 0x12#8])
    (fun t => (t.pc, t.sp, t.stack.cells)) = some (0x1234#16, 14#16, [(14, 0x03#8), (15, 0x20#8)]) := by decide
/-- V6b: the second push raises. -/
theorem test_CALL_with_one_byte_left : afterStep { loaded 0x2000#16 [0xCD#8, 0x34#8, 0x12#8] with sp := 1#16 }
    (fun t => t.run) = some (.halted (.stackOutOfBounds (-1))) := by decide
/-- V7a. -/
theorem test_RST : afterStep { loaded 0x000B#16 [0xFF#8] with sp := 14#16 }
    (fun t => (t.pc, t.sp, t.stack.get 13, t.stack.get 12)) = some (0x0038#16, 12#16, 0x00#8, 0x0C#8) := by decide
/-- V7c: nothing can be pushed. -/
theorem test_RST_at_the_top : afterStep (loaded 0xFFFF#16 [0xFF#8])
    (fun t => t.run) = some (.halted (.pcOutOfRange 0x10000)) := by decide
/-- V8a. -/
theorem test_OR_B : afterStep { loaded 0x0100#16 [0xB0#8] with a := 0x2E#8, b := 0x01#8, f := 0x40#8 }
    (fun t => (t.a, t.b, t.f, t.pc)) = some (0x2F#8, 0x01#8, 0x40#8, 0x0101#16) := by decide
/-- V8b: Z is not set. -/
theorem test_OR_B_zero_keeps_flags : afterStep { loaded 0x0100#16 [0xB0#8] with f := 0x70#8 }
    (fun t => (t.a, t.f)) = some (0x00#8, 0x70#8) := by decide
/-- V9c, S7. -/
theorem test_SUB_borrow : afterStep { loaded 0x0100#16 [0xD6#8, 0x40#8] with a := 0x3E#8, f := 0x0F#8 }
    (fun t => (t.a, t.f, t.pc)) = some (0xFE#8, 0x5F#8, 0x0102#16) := by decide
/-- V9a, S5. -/
theorem test_SUB_half_borrow : afterStep { loaded 0x0100#16 [0xD6#8, 0x0F#8] with a := 0x3E#8, f := 0x0F#8 }
    (fun t => (t.a, flags t)) = some (0x2F#8, false, true, true, false) := by decide
/-- V10c: from 0 the branch is taken, forward by 255. -/
theorem test_DJNZ_from_zero : afterStep (loaded 0x0008#16 [0x10#8, 0xFF#8])
    (fun t => (t.b, t.pc, t.f)) = some (0xFF#8, 0x0109#16, 0x00#8) := by decide
/-- V10i: not taken, the offset byte lies outside Memory and is not read. -/
theorem test_DJNZ_not_taken : afterStep { loadedIn 0x100 0x00FF#16 [0x10#8] with b := 0x01#8 }
    (fun t => (t.b, t.pc, t.run)) = some (0x00#8, 0x0101#16, .running) := by decide
/-- V11j: `HL` at the opcode itself. -/
theorem test_ADD_A_HL : afterStep { loaded 0x0100#16 [0x86#8] with h := 0x01#8, a := 0x01#8 }
    (fun t => (t.a, t.f, t.pc)) = some (0x87#8, 0x00#8, 0x0101#16) := by decide
/-- V11f: the byte at 0x2000 is placed beside the opcode; N is cleared, the unused bits stay. -/
theorem test_ADD_A_HL_flags : afterStep { loaded 0x1FFF#16 [0x86#8, 0xC6#8] with h := 0x20#8, a := 0x3A#8, f := 0x4F#8 }
    (fun t => (t.a, t.f)) = some (0x00#8, 0xBF#8) := by decide
/-- V12a, S8. -/
theorem test_ADD_HL_HL : afterStep { loaded 0x0100#16 [0x29#8] with h := 0x8A#8, l := 0x23#8, f := 0x4F#8 }
    (fun t => (t.h, t.l, t.f, t.pc)) = some (0x14#8, 0x46#8, 0x7F#8, 0x0101#16) := by decide
/-- V12e: the row that tells bit 11 from bit 10. -/
theorem test_ADD_HL_HL_half_carry : afterStep { loaded 0x0100#16 [0x29#8] with h := 0x04#8, f := 0x4F#8 }
    (fun t => (t.h, t.l, t.f)) = some (0x08#8, 0x00#8, 0x4F#8) := by decide
/-- V13a: no return. -/
theorem test_RET_PE : afterStep { loaded 0x0006#16 [0xE8#8] with sp := 14#16, f := 0x60#8 }
    (fun t => (t.pc, t.sp, t.f)) = some (0x0007#16, 14#16, 0x60#8) := by decide
/-- V14a, S10. -/
theorem test_unknown_opcode : afterStep { loaded 0x0100#16 [0xDD#8] with a := 0x01#8, f := 0xF0#8 } (fun t => (t.pc, t.a, t.run)) =
    some (0x0100#16, 0x01#8, .halted (.unknownOpcode 0xDD#8 0x0100#16)) := by decide
/-- V14d. -/
theorem test_fetch_beyond_memory : afterStep (loadedIn 0x200 0x0200#16 [])
    (fun t => t.run) = some (.halted (.memOutOfBounds 0x200)) := by decide
/-- V14e. -/
theorem test_halted_has_no_step :
    afterStep { State.reset with run := .halted (.pcOutOfRange 0x10000) } (fun t => t.pc) = none := by decide
/-- S3. -/
theorem test_pair_composition : State.pair { State.reset with h := 0x20#8, l := 0x5F#8 } .hl = 0x205F#16 := by decide
/-- V15c: a pop undoes a push. -/
theorem test_pop_undoes_push : (nextOf (push16 0x2003#16 State.reset fun s => pop16 s fun w s => .next (s.setPc w))).map
    (fun t => (t.pc, t.sp)) = some (0x2003#16, 16#16) := by decide
/-- A Memory write of the value an unlisted byte reads as leaves nothing listed (R51). -/
theorem test_write_zero_unlists : ((Memory.set { size := 4, cells := [] } 1 7#8).set 1 0#8).cells = [] := by decide

/-! ### Other parameters (R4): expected values from R104, R121, R123, R152 with the other opcodes, vector and masks -/

theorem test_other_opcode_of_JP : afterOtherStep (loaded 0x0100#16 [0x00#8, 0x50#8, 0x01#8]) (fun t => t.pc) = some 0x0150#16 := by
  decide
/-- S7 with Z N H C = 0 1 0 1 in bits 0 to 3 and the four high bits unused. -/
theorem test_other_masks_of_SUB : afterOtherStep { loaded 0x0100#16 [0xD6#8, 0x40#8] with a := 0x3E#8, f := 0xF0#8 }
    (fun t => (t.a, t.f)) = some (0xFE#8, 0xFA#8) := by decide
theorem test_other_vector_of_RST : afterOtherStep { loaded 0x000B#16 [0xFF#8] with sp := 14#16 }
    (fun t => (t.pc, t.sp, t.stack.get 12)) = some (0x0008#16, 12#16, 0x0C#8) := by decide

/-- The host's placing of an instruction: the word `JP 0x1234` runs as the first instruction after reset. -/
theorem test_withFetchWord : afterStep (State.reset.withFetchWord 24 0x1234C3) (fun t => t.pc) = some 0x1234#16 := by decide
/-- Operand bytes beyond the row's bits are zero. -/
theorem test_withFetchWord_pads_with_zero : (State.reset.withFetchWord 8 0xFFFFFFC3).mem.cells = [(0, 0xC3#8)] := by decide

/-! ### Witnesses: the statements' hypotheses can be met -/

theorem witness_DecodeOfEncodedInstruction : opcodes.wf = true ∧ Instr.wf (.ldHlNn 0xFF#8 0x00#8) = true := by decide

theorem witness_EncodingOfDecodedBytes :
    decodeBytes opcodes [0x21#8, 0x20#8, 0x5F#8, 0x29#8] = .ok (.ldHlNn 0x20#8 0x5F#8, [0x29#8]) := rfl

/-- The last three bytes of a Memory of 256 bytes. -/
theorem witness_StepRunsDecodedInstruction :
    let s := loadedIn 0x100 0x00FD#16 [0xCD#8, 0x34#8, 0x12#8]
    s.run = .running ∧ s.pc.toNat < s.mem.size ∧
      decode opcodes (s.mem.get s.pc.toNat) (s.mem.get (s.pc.toNat + 1)) (s.mem.get (s.pc.toNat + 2)) = .ok (.callNn 0x1234#16) ∧
      Instr.wf (.callNn 0x1234#16) = true := ⟨rfl, by decide, rfl, rfl⟩

/-- The premises of one clause of `OperandsComeFromMemory`: running, the opcode, and the last operand byte inside Memory. -/
def operandClause (op : Byte) (last : Nat) (s : State) : Bool :=
  decide (s.run = .running) && decide (s.mem.get s.pc.toNat = op) && decide (s.pc.toNat + last < s.mem.size)

/-- Each clause with its last byte the last of Memory. -/
theorem witness_OperandsComeFromMemory :
    operandClause 0xC3#8 2 (loadedIn 0x100 0x00FD#16 [0xC3#8, 0x34#8, 0x12#8]) = true ∧
    operandClause 0xCD#8 2 (loadedIn 0x100 0x00FD#16 [0xCD#8, 0x34#8, 0x12#8]) = true ∧
    operandClause 0x21#8 2 (loadedIn 0x100 0x00FD#16 [0x21#8, 0x20#8, 0x5F#8]) = true ∧
    operandClause 0xD6#8 1 (loadedIn 0x100 0x00FE#16 [0xD6#8, 0xFF#8]) = true ∧
    operandClause 0x10#8 1 (loadedIn 0x100 0x00FE#16 [0x10#8, 0xFF#8]) = true ∧
    operandClause 0x0A#8 0 (loadedIn 0x100 0x00FF#16 [0x0A#8]) = true := by decide

theorem witness_FetchOutsideMemoryHalts :
    (loadedIn 0x200 0x0200#16 []).run = .running ∧ (loadedIn 0x200 0x0200#16 []).mem.size ≤ (loadedIn 0x200 0x0200#16 []).pc.toNat := by
  decide

/-- The first byte above `NOP`'s and the last one below `RST 38H`'s. -/
theorem witness_UnknownOpcodeHaltsUnchanged :
    (let s := loadedIn 0x100 0x00FF#16 [0xFE#8]
     s.run = .running ∧ s.pc.toNat < s.mem.size ∧ s.mem.get s.pc.toNat ∉ opcodes.bytes) ∧
    (let s := loaded 0x0000#16 [0x01#8]
     s.run = .running ∧ s.pc.toNat < s.mem.size ∧ s.mem.get s.pc.toNat ∉ opcodes.bytes) := by decide

theorem witness_HaltedIsTerminal :
    State.run { State.reset with run := .halted (.unknownOpcode 0xDD#8 0#16) } = .halted (.unknownOpcode 0xDD#8 0#16) := rfl

/-- A run of one step that ends. -/
theorem witness_RunEndsAtMostOneWay :
    RunEnds (loaded 0x0000#16 [0xDD#8]) (.unknownOpcode 0xDD#8 0x0000#16)
      { loaded 0x0000#16 [0xDD#8] with run := .halted (.unknownOpcode 0xDD#8 0x0000#16) } := ⟨1, rfl, rfl⟩

/-- Running states with a cause and without one: no step halts `NOP` at 0xFFFE, the advance halts it at 0xFFFF. -/
theorem witness_HaltCauseOfEveryStep :
    (loaded 0xFFFE#16 []).run = .running ∧ stepCause (loaded 0xFFFE#16 []) = none ∧
    (loaded 0xFFFF#16 []).run = .running ∧ stepCause (loaded 0xFFFF#16 []) = some (.pcOutOfRange 0x10000) := by decide

/-- For `NopOnlyAdvancesPc`, `ConditionalReturnHasNoEffect`, `IncrementB`, `OrBIntoAccumulator` and `DoubleHl`. -/
theorem witness_one_byte_instructions : (loaded 0xFFFE#16 []).pc.toNat + 1 ≤ 0xFFFF := by decide

theorem witness_OneByteInstructionsHaltAtTheTop :
    (loaded 0xFFFF#16 []).run = .running ∧ (loaded 0xFFFF#16 []).pc = 0xFFFF#16 ∧
    Instr.retPe ∈ [Instr.nop, .incB, .orB, .addHlHl, .retPe] := by decide

/-- The three clauses of `JumpSetsPc`: the operand ends with Memory, begins beyond it, ends beyond it. -/
theorem witness_JumpSetsPc :
    (loadedIn 0x103 0x0100#16 [0xC3#8]).pc.toNat + 2 < (loadedIn 0x103 0x0100#16 [0xC3#8]).mem.size ∧
    (loadedIn 0x101 0x0100#16 [0xC3#8]).mem.size ≤ (loadedIn 0x101 0x0100#16 [0xC3#8]).pc.toNat + 1 ∧
    (loadedIn 0x102 0x0100#16 [0xC3#8]).mem.size = (loadedIn 0x102 0x0100#16 [0xC3#8]).pc.toNat + 2 := by decide

/-- `sp` at both ends of its range, `pc` at the top. -/
theorem witness_CallPushesReturnAddress :
    (let s := loaded 0xFFFC#16 [0xCD#8]
     s.stack.wf = true ∧ s.pc.toNat + 3 ≤ 0xFFFF ∧ 2 ≤ s.sp.toNat ∧ s.sp.toNat ≤ s.stack.size ∧ s.pc.toNat + 2 < s.mem.size) ∧
    (let s := { loadedIn 3 0x0000#16 [0xCD#8] with sp := 2#16 }
     s.stack.wf = true ∧ s.pc.toNat + 3 ≤ 0xFFFF ∧ 2 ≤ s.sp.toNat ∧ s.sp.toNat ≤ s.stack.size ∧ s.pc.toNat + 2 < s.mem.size) := by
  decide

/-- For `RestartGoesToTheVector` too. -/
theorem witness_RestartPushesReturnAddress :
    (let s := loaded 0xFFFE#16 [0xFF#8]
     s.stack.wf = true ∧ s.pc.toNat + 1 ≤ 0xFFFF ∧ 2 ≤ s.sp.toNat ∧ s.sp.toNat ≤ s.stack.size) ∧
    (let s := { loaded 0x0000#16 [0xFF#8] with sp := 2#16 }
     s.stack.wf = true ∧ s.pc.toNat + 1 ≤ 0xFFFF ∧ 2 ≤ s.sp.toNat ∧ s.sp.toNat ≤ s.stack.size) := by decide

/-- Taken with `B` 0 and 2 and the longest offset to 0xFFFF; not taken at the last address. -/
theorem witness_DecrementAndJumpIfNonzero :
    (let s := loaded 0xFEFE#16 [0x10#8, 0xFF#8]
     s.b ≠ 1#8 ∧ s.pc.toNat + 1 < s.mem.size ∧ s.pc.toNat + 2 + (0xFF#8).toNat ≤ 0xFFFF) ∧
    (let s := { loadedIn 2 0x0000#16 [0x10#8] with b := 2#8 }
     s.b ≠ 1#8 ∧ s.pc.toNat + 1 < s.mem.size ∧ s.pc.toNat + 2 + (0#8).toNat ≤ 0xFFFF) ∧
    (let s := { loaded 0xFFFD#16 [0x10#8] with b := 1#8 }
     s.b = 1#8 ∧ s.pc.toNat + 2 ≤ 0xFFFF) := by decide

/-- `BC` at the last byte of Memory. -/
theorem witness_LoadAccumulatorFromBc :
    let s := { loaded 0xFFFC#16 [0x0A#8] with b := 0xFF#8, c := 0xFF#8 }
    s.b.toNat * 256 + s.c.toNat < s.mem.size ∧ s.pc.toNat + 3 ≤ 0xFFFF := by decide

theorem witness_LoadHlImmediate :
    (loadedIn 0x103 0x0100#16 [0x21#8]).pc.toNat + 2 < (loadedIn 0x103 0x0100#16 [0x21#8]).mem.size ∧
    (loadedIn 0x103 0x0100#16 [0x21#8]).pc.toNat + 3 ≤ 0xFFFF := by decide

theorem witness_SubtractImmediate :
    (loaded 0xFFFD#16 [0xD6#8]).pc.toNat + 1 < (loaded 0xFFFD#16 [0xD6#8]).mem.size ∧ (loaded 0xFFFD#16 [0xD6#8]).pc.toNat + 2 ≤ 0xFFFF := by
  decide

/-- `HL` at the last byte of Memory. -/
theorem witness_AddMemoryToAccumulator :
    let s := { loaded 0xFFFE#16 [0x86#8] with h := 0xFF#8, l := 0xFF#8 }
    s.h.toNat * 256 + s.l.toNat < s.mem.size ∧ s.pc.toNat + 1 ≤ 0xFFFF := by decide

theorem witness_Inc8Laws : (0xFF#8 : Byte) = 255#8 ∧ (0xFE#8 : Byte).toNat < 255 := by decide

theorem witness_Sub8Laws : (0x3E#8 : Byte).toNat ≤ (0x3E#8 : Byte).toNat ∧ (0x3E#8 : Byte).toNat < (0x3F#8 : Byte).toNat := by decide

/-- For `FlagBitIsolation` and `FlagAccessorLaws`: the decided layout and another. -/
theorem witness_flag_layouts :
    flagLayout.wf = true ∧ FlagLayout.wf { maskZ := 0x01#8, maskN := 0x80#8, maskH := 0x02#8, maskC := 0x40#8 } = true ∧
    Flag.z ≠ Flag.c := by decide

theorem witness_PairIsAViewOfTwoRegisters : Pair.de ≠ Pair.hl := by decide

/-- The last address inside and the first outside, on both sides, for each clause of `ReadsCheckBounds` and
`WritesChangeOneByte`. -/
theorem witness_access_bounds :
    State.reset.mem.wf = true ∧ State.reset.stack.wf = true ∧
    ((0 : Int) ≤ 65535 ∧ (65535 : Int) < State.reset.mem.size) ∧ (State.reset.mem.size : Int) ≤ 65536 ∧
    ((0 : Int) ≤ 15 ∧ (15 : Int) < State.reset.stack.size) ∧ (State.reset.stack.size : Int) ≤ 16 ∧
    (-1 : Int) < 0 := by decide

/-- A push at both ends of the range of `sp`; a pop from the empty Stack. -/
theorem witness_PopIsInverseOfPush :
    (State.reset.stack.wf = true ∧ 2 ≤ State.reset.sp.toNat ∧ State.reset.sp.toNat ≤ State.reset.stack.size) ∧
    (let s := { State.reset with sp := 2#16 }
     s.stack.wf = true ∧ 2 ≤ s.sp.toNat ∧ s.sp.toNat ≤ s.stack.size) ∧
    State.reset.sp.toNat = State.reset.stack.size := by decide

/-- For the frame statements, `PcAfterRetirement` and the statements on what is not read: one running state in which every
instruction retires (the Stack is canonical, a call stores at 15 and 14 and leaves 13 and 16 alone). -/
theorem witness_every_instruction_retires :
    let s := loaded 0x0100#16 []
    s.run = .running ∧ s.stack.wf = true ∧
    ∀ i ∈ [Instr.nop, .jpNn 0xFFFF#16, .incB, .ldABc 1#8 2#8, .ldHlNn 1#8 2#8, .callNn 0xFFFF#16, .rst38, .orB, .subN 1#8, .djnzE 0xFF#8,
      .addAHl, .addHlHl, .retPe], afterExec i s (fun t => t.run) = some .running := by decide

/-- The other premises of the frames: a register, a flag and a Stack byte outside what an instruction writes. -/
theorem witness_frames :
    Reg.f ∉ regsWritten .incB ∧ isCall .incB = false ∧ Flag.n ∉ flagsWritten .addHlHl ∧ isCall .rst38 = true ∧
    ((13 : Int) ≠ (State.reset.sp.toNat : Int) - 1 ∧ (13 : Int) ≠ (State.reset.sp.toNat : Int) - 2) := by decide

/-- The other state of `NoInstructionReadsFlags`, `NoInstructionReadsStack` and `NoInstructionUsesDE` retires too. -/
theorem witness_what_is_not_read :
    let s := loaded 0x0100#16 []
    afterExec .addHlHl { s with f := 0xFF#8 } (fun t => t.run) = some .running ∧ Flag.c ∈ flagsWritten .addHlHl ∧
    afterExec .rst38 { s with stack := { s.stack with cells := [(3, 7#8)] } } (fun t => t.run) = some .running ∧
    afterExec .incB { s with d := 0xFF#8, e := 1#8 } (fun t => t.run) = some .running := by decide

/-- The smallest and the largest parameters of R4; an image that fills Memory. -/
theorem witness_ConstructionGivesResetValues :
    (let p : Params := { memSize := 1, image := [0x29#8], stackSize := 0, startPc := 0 }
     1 ≤ p.memSize ∧ p.memSize ≤ 65536 ∧ p.stackSize ≤ 65535 ∧ p.startPc ≤ 65535 ∧ p.image.length ≤ p.memSize) ∧
    (let p : Params := { memSize := 65536, image := [], stackSize := 65535, startPc := 65535 }
     1 ≤ p.memSize ∧ p.memSize ≤ 65536 ∧ p.stackSize ≤ 65535 ∧ p.startPc ≤ 65535 ∧ p.image.length ≤ p.memSize) := by decide

theorem witness_InvariantHoldsAfterConstruction : State.construct Config.params = .ok State.reset := rfl

theorem witness_StepKeepsUntouchedParts :
    UntouchedParts otherParameters.flags { Config.params with image := [0x00#8, 0x50#8, 0x01#8] }
      (loaded 0x0000#16 [0x00#8, 0x50#8, 0x01#8]) ∧
    afterOtherStep (loaded 0x0000#16 [0x00#8, 0x50#8, 0x01#8]) (fun t => t.pc) = some 0x0150#16 := by
  refine ⟨⟨rfl, fun a => ?_, rfl, rfl, by decide, rfl, by decide⟩, by decide⟩
  rcases a with _ | _ | _ | a <;> rfl

/-- A `RST 38H` that fills the Stack, and a `NOP`: fetched, and retiring. -/
theorem witness_RetiringStepTakesTwoStackBytesPerCall :
    (let s := { loaded 0x0000#16 [0xFF#8] with sp := 2#16 }
     s.fetched = some .rst38 ∧ afterStep s (fun t => t.run) = some .running) ∧
    (State.reset.fetched = some .nop ∧ afterStep State.reset (fun t => t.run) = some .running) := by decide

/-- The three clauses, under other opcodes: a `JP` that ends with Memory, a byte of no opcode, `pc` at the end of
Memory. -/
theorem witness_StepRunsEncodedInstructionUnderEveryOpcodeMap :
    otherParameters.wf = true ∧
    (let s := loadedIn 0x100 0x00FD#16 [0x00#8, 0x34#8, 0x12#8]
     s.run = .running ∧ Instr.wf (.jpNn 0x1234#16) = true ∧ s.pc.toNat < s.mem.size ∧
     ∀ (k : Nat) (h : k < (encode otherParameters.opcodes (.jpNn 0x1234#16)).length),
       s.mem.get (s.pc.toNat + k) = (encode otherParameters.opcodes (.jpNn 0x1234#16))[k]) ∧
    (let s := loadedIn 0x100 0x00FF#16 [0xFE#8]
     s.pc.toNat < s.mem.size ∧ s.mem.get s.pc.toNat ∉ otherParameters.opcodes.bytes) ∧
    (let s := loadedIn 0x100 0x0100#16 []
     s.mem.size ≤ s.pc.toNat) := by decide

/-- The decided parameters beside the others: the same flags in other places, and `SUB n` retires under both. -/
theorem witness_ParametersMatterOnlyToFlagPositionsAndRestart :
    let s := { loaded 0x0100#16 [] with f := 0x9F#8 }
    decidedDefaults.wf = true ∧ otherParameters.wf = true ∧ s.run = .running ∧
    (∀ k ∈ [Flag.z, .n, .h, .c], getFlagBit otherParameters.flags k 0x09#8 = getFlagBit decidedDefaults.flags k s.f) ∧
    (nextOf (execFor decidedDefaults (.subN 1#8) s)).map (fun t => t.run) = some .running ∧
    (nextOf (execFor otherParameters (.subN 1#8) { s with f := 0x09#8 })).map (fun t => t.run) = some .running ∧
    Instr.subN 1#8 ≠ .rst38 := by decide

theorem witness_inv_reset : Inv State.reset := ⟨by decide, by decide, by decide, by decide, by decide, by decide⟩

/-- From reset, whose Memory is zero, the first step retires a `NOP`. -/
theorem witness_StepKeepsInvariant : step State.reset = .next { State.reset with pc := 1#16 } := rfl

theorem witness_ReachableStatesKeepUntouchedParts : Reachable Config.params { State.reset with pc := 1#16 } :=
  .step (.start witness_InvariantHoldsAfterConstruction) witness_StepKeepsInvariant

/-- A run from construction in which a `RST 38H` has retired, with a Stack of two bytes: it is then full. -/
theorem witness_CallsAreBoundedByStackSize :
    ∃ s, Retired { memSize := 1, image := [0xFF#8], stackSize := 2, startPc := 0 } [.rst38] s ∧ s.sp = 0#16 :=
  ⟨_, .step (tr := []) (i := .rst38) (.start rfl) rfl rfl rfl, rfl⟩

end Sys2Proof.Tests
end

/-! # Proofs: the scope of the model (spec/00_scope.md)

The parameters of R4 (construction, opcode map, masks, restart vector) and the register pairs of R22. The last part settles
the obligations from the laws of the parts before it. -/

/-! ## Which parameters are legal (R4, R197) -/

namespace Sys2Proof

theorem OpcodeMap.wf_iff (M : OpcodeMap) : M.wf = true ↔ M.bytes.Nodup := decide_eq_true_iff

/-- The eight one-bit masks are the powers of two, which is how R4 counts them. -/
theorem isOneBitMask_iff (m : Byte) : isOneBitMask m = true ↔ ∃ k < 8, m.toNat = 2 ^ k := by
  have hpowers : isOneBitMask m = ((List.range 8).map fun k => BitVec.ofNat 8 (2 ^ k)).contains m := rfl
  rw [hpowers, List.contains_iff_mem, List.mem_map]
  refine exists_congr fun k => ?_
  rw [List.mem_range]
  refine and_congr_right fun hk => ?_
  have hlt : 2 ^ k < 2 ^ 8 := Nat.pow_lt_pow_right (by decide) hk
  rw [← BitVec.toNat_inj, BitVec.toNat_ofNat, Nat.mod_eq_of_lt hlt, eq_comm]

theorem FlagLayout.wf_iff (L : FlagLayout) :
    L.wf = true ↔ L.masks.Nodup ∧ ∀ m ∈ L.masks, ∃ k < 8, m.toNat = 2 ^ k := by
  simp only [FlagLayout.wf, Bool.and_eq_true, List.all_eq_true, decide_eq_true_eq, isOneBitMask_iff, and_comm]

theorem Implementation.wf_iff (I : Implementation) : I.wf = true ↔ I.opcodes.wf = true ∧ I.flags.wf = true :=
  Bool.and_eq_true_iff

theorem Implementation.not_wf_iff (I : Implementation) :
    ¬ I.wf = true ↔
      ¬ I.opcodes.bytes.Nodup ∨ ¬ I.flags.masks.Nodup ∨ ∃ m ∈ I.flags.masks, ∀ k < 8, m.toNat ≠ 2 ^ k := by
  rw [Implementation.wf_iff, OpcodeMap.wf_iff, FlagLayout.wf_iff, not_and_or, not_and_or]
  push Not
  rfl

theorem Params.wf_iff (p : Params) :
    p.wf = true ↔ 1 ≤ p.memSize ∧ p.memSize ≤ 65536 ∧ p.stackSize ≤ 65535 ∧ p.startPc ≤ 65535 ∧
      p.image.length ≤ p.memSize := by
  simp only [Params.wf, Bool.and_eq_true, decide_eq_true_eq, and_assoc]

theorem Params.not_wf_iff (p : Params) :
    ¬ p.wf = true ↔ p.memSize = 0 ∨ 65536 < p.memSize ∨ 65535 < p.stackSize ∨ 65535 < p.startPc ∨
      p.memSize < p.image.length := by
  rw [Params.wf_iff]
  omega

end Sys2Proof

namespace Sys2Proof.Machine

open Sys2Proof.Safety

theorem construct_ok_iff (p : Params) (s : State) :
    State.construct p = .ok s ↔ p.wf = true ∧ State.initial p = s := by
  by_cases h : p.wf = true <;> simp [State.construct, h]

theorem construct_refused_iff (p : Params) : State.construct p = .error .malformedParameters ↔ ¬ p.wf = true := by
  by_cases h : p.wf = true <;> simp [State.construct, h]

theorem constructFor_refused_iff (I : Implementation) (p : Params) :
    State.constructFor I p = .error .malformedParameters ↔ ¬ I.wf = true ∨ ¬ p.wf = true := by
  by_cases h : I.wf = true <;> simp [State.constructFor, h, construct_refused_iff]

/-- The ranges of R4 are exactly what the invariant needs of the state R210 builds. -/
theorem inv_initial {p : Params} (h : p.wf = true) : Inv (State.initial p) := by
  obtain ⟨hmem, hmem', hstack, -, himage⟩ := (Params.wf_iff p).1 h
  exact {
    mem_wf := Memory.wf_ofImage himage
    mem_size_pos := hmem
    mem_size_le := hmem'
    stack_wf := Memory.wf_ofImage (Nat.zero_le _)
    stack_size_le := hstack
    sp_le := Nat.mod_le _ _ }

/-! ## Register pairs (R22) -/

theorem State.pair_setPair_same (s : State) (p : Pair) (w : Word) : (s.setPair p w).pair p = w := by
  cases p <;> exact pairWord_hi_lo w

theorem State.pair_setPair_other (s : State) {p q : Pair} (w : Word) (h : q ≠ p) :
    (s.setPair p w).pair q = s.pair q := by
  revert h
  cases p <;> cases q <;> simp

end Sys2Proof.Machine

/-! ## Decoding the bytes of an encoding (R82, R100) -/

namespace Sys2Proof

/-- The operand bytes of an encoding are the operands: the two bytes after the opcode rebuild the instruction. -/
theorem withOperandBytes_of_encode {M : OpcodeMap} {i : Instr} {b : Nat → Byte}
    (hb : ∀ (k : Nat) (h : k < (encode M i).length), b k = (encode M i)[k]) : withOperandBytes i (b 1) (b 2) = i := by
  cases i with
  | jpNn | callNn | ldABc | ldHlNn =>
    rw [withOperandBytes, hb 1 (by simp [encode]), hb 2 (by simp [encode])]
    simp [encode]
  | subN | djnzE =>
    rw [withOperandBytes, hb 1 (by simp [encode])]
    simp [encode]
  | nop | incB | rst38 | orB | addAHl | addHlHl | retPe => rfl

/-- Bytes that begin with an encoding decode to the encoded instruction, whatever follows. -/
theorem decode_of_encode {M : OpcodeMap} (hM : M.wf = true) {i : Instr} {b : Nat → Byte}
    (hb : ∀ (k : Nat) (h : k < (encode M i).length), b k = (encode M i)[k]) : decode M (b 0) (b 1) (b 2) = .ok i := by
  have hhead : b 0 = opcodeOf M i := by
    obtain ⟨rest, hcons⟩ := List.head?_eq_some_iff.1 (encode_head M i)
    rw [hb 0 (by simp [hcons])]
    simp [hcons]
  rw [decode_opcodeOf hM hhead, withOperandBytes_of_encode hb]

end Sys2Proof

/-! ## Flag writes and the parameters (R26, R27, R30) -/

namespace Sys2Proof.Machine

open Sys2Proof.Safety

/-- Two flag bytes, each under its own layout, that hold the same four flags. -/
def SameFlags (L L' : FlagLayout) (f f' : Byte) : Prop := ∀ k : Flag, getFlagBit L' k f' = getFlagBit L k f

theorem SameFlags.setFlagBit {L L' : FlagLayout} (hL : L.wf = true) (hL' : L'.wf = true) {f f' : Byte}
    (h : SameFlags L L' f f') (j : Flag) (b : Bool) : SameFlags L L' (setFlagBit L j b f) (setFlagBit L' j b f') := by
  intro k
  by_cases hk : k = j
  · subst hk
    rw [getFlagBit_setFlagBit_same hL, getFlagBit_setFlagBit_same hL']
  · rw [getFlagBit_setFlagBit_other hL hk, getFlagBit_setFlagBit_other hL' hk, h k]

/-- The flag byte after writing some flags, first to last. -/
def writeFlags (L : FlagLayout) : List (Flag × Bool) → Byte → Byte
  | [], f => f
  | (k, b) :: rest, f => writeFlags L rest (setFlagBit L k b f)

theorem SameFlags.writeFlags {L L' : FlagLayout} (hL : L.wf = true) (hL' : L'.wf = true) (ws : List (Flag × Bool))
    {f f' : Byte} (h : SameFlags L L' f f') : SameFlags L L' (writeFlags L ws f) (writeFlags L' ws f') := by
  induction ws generalizing f f' with
  | nil => exact h
  | cons w ws ih => exact ih (h.setFlagBit hL hL' w.1 w.2)

theorem writeFlags_and_unusedBits (L : FlagLayout) (ws : List (Flag × Bool)) (f : Byte) :
    writeFlags L ws f &&& unusedBits L = f &&& unusedBits L := by
  induction ws generalizing f with
  | nil => rfl
  | cons w ws ih => rw [writeFlags, ih, setFlagBit_and_unusedBits]

/-- The flags an instruction writes and their values, in the order written. No parameter of R4 occurs in them. -/
def flagWrites (i : Instr) (s : State) : List (Flag × Bool) :=
  match i with
  | .subN n => let x := sub8 s.a n; [(.z, x.z), (.n, true), (.h, x.h), (.c, x.c)]
  | .addAHl =>
    let x := add8 s.a (s.mem.get (pairWord s.h s.l).toNat); [(.z, x.z), (.n, false), (.h, x.h), (.c, x.c)]
  | .addHlHl => let x := dbl16 (pairWord s.h s.l); [(.z, x.z), (.h, x.h), (.c, x.c)]
  | .nop | .jpNn _ | .incB | .ldABc _ _ | .ldHlNn _ _ | .callNn _ | .rst38 | .orB | .djnzE _ | .retPe => []

/-- The masks enter retirement only here: in the places the written flags go to. -/
theorem retiredFor_f (I : Implementation) (i : Instr) (s : State) :
    (retiredFor I i s).f = writeFlags I.flags (flagWrites i s) s.f := by
  cases i <;> rfl

theorem flagWrites_of_other_f (i : Instr) (s : State) (f' : Byte) :
    flagWrites i { s with f := f' } = flagWrites i s := by
  cases i <;> rfl

theorem haltCause_of_other_f (i : Instr) (s : State) (f' : Byte) : haltCause i { s with f := f' } = haltCause i s := by
  cases i <;> rfl

/-- Retirement under other parameters and with another `F` differs in `F`, and in `pc` where the vector is the target. -/
theorem retiredFor_of_other_f (I J : Implementation) (i : Instr) (s : State) (f' : Byte) :
    { retiredFor J i { s with f := f' } with f := (retiredFor I i s).f, pc := (retiredFor I i s).pc } =
      retiredFor I i s := by
  cases i <;> rfl

theorem retiredFor_pc_of_other_f (I J : Implementation) {i : Instr} (hi : i ≠ .rst38) (s : State) (f' : Byte) :
    (retiredFor J i { s with f := f' }).pc = (retiredFor I i s).pc := by
  cases i with
  | rst38 => exact absurd rfl hi
  | _ => rfl

/-- The run state an instruction leaves a running machine in is the one its halt cause gives. -/
theorem execFor_run {I : Implementation} {i : Instr} {s t : State} (hrun : s.run = .running)
    (h : execFor I i s = .next t) : t.run = runStateOf (haltCause i s) := by
  rcases execFor_ends I i s with ⟨hc, he⟩ | ⟨f, u, hc, he, -⟩
  · cases he.symm.trans h
    rw [hc, retiredFor_run, hrun, runStateOf]
  · cases he.symm.trans h
    rw [hc, runStateOf]

/-! ## The restart vector (R58, R123) -/

theorem pushed16_sp {w : Word} {s : State} (h2 : 2 ≤ s.sp.toNat) : (pushed16 w s).sp = s.sp - 2#16 := by
  have hle : 2#16 ≤ s.sp := h2
  apply BitVec.eq_of_toNat_eq
  rw [pushed16_sp_toNat, BitVec.toNat_sub_of_le hle]
  rfl

theorem execFor_rst38_next (I : Implementation) {s : State} (hpc : s.pc.toNat + 1 ≤ 0xFFFF) (h2 : 2 ≤ s.sp.toNat)
    (hs : s.sp.toNat ≤ s.stack.size) : execFor I .rst38 s = .next (retiredFor I .rst38 s) := by
  rw [execFor, restart, returnAddress_next hpc, push16_next h2 hs]
  rfl

end Sys2Proof.Machine

/-! ## The obligations -/

namespace Sys2Proof.Proofs

open Sys2Proof.Machine Sys2Proof.Safety

/-- Settles O49: construction accepts exactly the ranges of R4, and the state of R210 meets the invariant in them. -/
theorem invariantHoldsAfterConstruction : Obligations.InvariantHoldsAfterConstruction := by
  intro p s h
  obtain ⟨hwf, rfl⟩ := (construct_ok_iff p s).1 h
  exact inv_initial hwf

/-- Settles O57: the bytes of an encoding decode to the instruction, and the two ways not to decode are the two halts of
the fetch. -/
theorem stepRunsEncodedInstructionUnderEveryOpcodeMap :
    Obligations.StepRunsEncodedInstructionUnderEveryOpcodeMap := by
  intro I hI s hrun
  have inMemory : s.pc.toNat < s.mem.size → s.mem.inBounds s.pc.toNat := fun h => ⟨by omega, by omega⟩
  refine ⟨fun i _ hpc hbytes => ?_, fun hpc hnot => ?_, fun hpc => ?_⟩
  · have hM : I.opcodes.wf = true := ((Implementation.wf_iff I).1 hI).1
    exact stepFor_exec hrun (inMemory hpc) (decode_of_encode (b := s.codeByte) hM hbytes)
  · exact stepFor_unknown hrun (inMemory hpc) (decode_of_not_mem (b0 := s.codeByte 0) hnot _ _)
  · exact stepFor_fetch_raise hrun (by simp only [Memory.inBounds]; omega)

/-- Settles O58: the halt cause mentions no parameter and no flag, and two retirements write the same flags to the places
their own masks give. -/
theorem parametersMatterOnlyToFlagPositionsAndRestart :
    Obligations.ParametersMatterOnlyToFlagPositionsAndRestart := by
  intro I J hI hJ i s t t' f' hrun hflags ht ht'
  have hsame : t'.run = t.run := by
    rw [execFor_run hrun ht, execFor_run (s := { s with f := f' }) hrun ht', haltCause_of_other_f]
  refine ⟨hsame, fun htrun => ?_⟩
  obtain ⟨-, rfl⟩ := execFor_retires ht htrun
  obtain ⟨-, rfl⟩ := execFor_retires ht' (hsame.trans htrun)
  refine ⟨retiredFor_of_other_f I J i s f', fun hi => retiredFor_pc_of_other_f I J hi s f', ?_, ?_, ?_⟩
  · have hwritten : SameFlags I.flags J.flags (retiredFor I i s).f (retiredFor J i { s with f := f' }).f := by
      rw [retiredFor_f, retiredFor_f, flagWrites_of_other_f]
      exact SameFlags.writeFlags ((Implementation.wf_iff I).1 hI).2 ((Implementation.wf_iff J).1 hJ).2 _ hflags
    exact hwritten
  · rw [retiredFor_f, writeFlags_and_unusedBits]
  · rw [retiredFor_f, writeFlags_and_unusedBits]

/-- Settles O59: both pushes fit, so the call retires, and the vector is the only trace of the parameters. -/
theorem restartGoesToTheVector : Obligations.RestartGoesToTheVector := by
  intro I s hwf hpc h2 hs
  have hret : (BitVec.ofNat 16 (s.pc.toNat + 1)).toNat = s.pc.toNat + 1 := by
    rw [BitVec.toNat_ofNat]; omega
  refine ⟨retiredFor I .rst38 s, execFor_rst38_next I hpc h2 hs, rfl, pushed16_sp h2, ?_, ?_, ?_⟩
  · have hget := pushed16_stack_get (w := BitVec.ofNat 16 (s.pc.toNat + 1)) hwf h2 hs (s.sp.toNat - 1)
    rw [if_neg (by omega), if_pos rfl] at hget
    exact (congrArg BitVec.toNat hget).trans (by rw [hiByte_toNat, hret])
  · have hget := pushed16_stack_get (w := BitVec.ofNat 16 (s.pc.toNat + 1)) hwf h2 hs (s.sp.toNat - 2)
    rw [if_pos rfl] at hget
    exact (congrArg BitVec.toNat hget).trans (by rw [loByte_toNat, hret])
  · rw [exec_eq_execFor, execFor_rst38_next decidedDefaults hpc h2 hs]
    rfl

/-- Settles O60: construction is refused when a check of R4 fails, and each disjunct is the failure of one of them. -/
theorem illegalParametersGiveNoMachine : Obligations.IllegalParametersGiveNoMachine := by
  intro I p
  rw [constructFor_refused_iff, Implementation.not_wf_iff, Params.not_wf_iff, or_assoc, or_assoc]

/-- Settles O34: the value of a pair is `pairWord` of its registers, and a pair write is two register writes. -/
theorem pairIsAViewOfTwoRegisters : Obligations.PairIsAViewOfTwoRegisters := by
  intro s
  refine ⟨pairWord_toNat s.b s.c, pairWord_toNat s.d s.e, pairWord_toNat s.h s.l, fun p w => ?_⟩
  refine ⟨s.pair_setPair_same p w, fun q hq => s.pair_setPair_other w hq, ?_⟩
  cases p <;> exact ⟨rfl, rfl, rfl, rfl, rfl, rfl, rfl⟩

/-- Settles O56: the defaults are legal, so the parametric construction does not refuse them. -/
theorem decidedDefaultsGiveTheMachine : Obligations.DecidedDefaultsGiveTheMachine :=
  ⟨decidedDefaults_wf, fun i s => (exec_eq_execFor i s).symm, fun s => (step_eq_stepFor s).symm,
    fun _ => if_pos decidedDefaults_wf⟩

end Sys2Proof.Proofs

/-! # Proofs: the state (spec/10_state.md)

What an instruction and a step leave unchanged, which parts of the state an instruction does not read, and the invariants
of reachable states. The laws come first: of the flag accessors (R26 to R30), of retirement as a whole (R23, R25, R32),
and of a step that retires or halts. The last part settles the obligations from them. -/

/-! ## Flag writes (R26 to R30) -/

namespace Sys2Proof.Machine

open Sys2Proof.Safety

theorem setFlagBit_comm {L : FlagLayout} (hL : L.wf = true) {j k : Flag} (hjk : j ≠ k) (b b' : Bool) (f : Byte) :
    setFlagBit L j b' (setFlagBit L k b f) = setFlagBit L k b (setFlagBit L j b' f) := by
  apply BitVec.eq_of_getLsbD_eq
  intro i _
  have hdisjoint := congrArg (fun m : Byte => m.getLsbD i) ((maskOf_of_wf hL).2 j k hjk)
  simp only [BitVec.getLsbD_and, BitVec.getLsbD_zero, Bool.and_eq_false_iff] at hdisjoint
  simp only [getLsbD_setFlagBit]
  rcases hdisjoint with h | h <;> simp [h]

/-- A flag that is not among those written keeps its value. -/
theorem getFlagBit_writeFlags_of_not_mem {L : FlagLayout} (hL : L.wf = true) {k : Flag} {ws : List (Flag × Bool)}
    (hk : k ∉ ws.map Prod.fst) (f : Byte) : getFlagBit L k (writeFlags L ws f) = getFlagBit L k f := by
  induction ws generalizing f with
  | nil => rfl
  | cons w ws ih =>
    rw [List.map_cons, List.mem_cons, not_or] at hk
    rw [writeFlags, ih hk.2, getFlagBit_setFlagBit_other hL hk.1]

/-- A flag that is among those written comes out the same whatever the flag byte was. -/
theorem getFlagBit_writeFlags_of_mem {L : FlagLayout} (hL : L.wf = true) {k : Flag} {ws : List (Flag × Bool)}
    (hk : k ∈ ws.map Prod.fst) (f f' : Byte) :
    getFlagBit L k (writeFlags L ws f') = getFlagBit L k (writeFlags L ws f) := by
  induction ws generalizing f f' with
  | nil => cases hk
  | cons w ws ih =>
    rw [writeFlags, writeFlags]
    by_cases hlater : k ∈ ws.map Prod.fst
    · exact ih hlater _ _
    · obtain rfl : k = w.1 := (List.mem_cons.1 hk).resolve_right hlater
      rw [getFlagBit_writeFlags_of_not_mem hL hlater, getFlagBit_writeFlags_of_not_mem hL hlater,
        getFlagBit_setFlagBit_same hL, getFlagBit_setFlagBit_same hL]

/-- The flags that retirement writes are those of R30's table. -/
theorem flagWrites_fst (i : Instr) (s : State) : (flagWrites i s).map Prod.fst = flagsWritten i := by
  cases i <;> rfl

/-! ## What retirement leaves unchanged (R23, R25, R32) -/

theorem firstCause_eq_none_iff (cs : List (Option Fault)) : firstCause cs = none ↔ ∀ c ∈ cs, c = none := by
  induction cs with
  | nil => simp [firstCause]
  | cons c cs ih => cases c <;> simp [firstCause, ih]

theorem pushCause_eq_none_iff (s : State) : pushCause s = none ↔ 2 ≤ s.sp.toNat ∧ s.sp.toNat ≤ s.stack.size := by
  unfold pushCause
  split_ifs <;> simp <;> omega

/-- A call that has no halt cause has room for both bytes of its return address. -/
theorem room_of_haltCause_eq_none {i : Instr} {s : State} (hcall : isCall i = true) (h : haltCause i s = none) :
    2 ≤ s.sp.toNat ∧ s.sp.toNat ≤ s.stack.size := by
  apply (pushCause_eq_none_iff s).1
  cases i with
  | callNn | rst38 => exact (firstCause_eq_none_iff _).1 h _ (by simp)
  | _ => cases hcall

/-- Retirement touches the Stack and `sp` only by the push of a call's return address. -/
theorem retiredFor_stack_cases (I : Implementation) (i : Instr) (s : State) :
    (isCall i = false ∧ (retiredFor I i s).stack = s.stack ∧ (retiredFor I i s).sp = s.sp) ∨
    (isCall i = true ∧ ∃ w : Word, (retiredFor I i s).stack = (pushed16 w s).stack ∧
      (retiredFor I i s).sp = (pushed16 w s).sp) := by
  cases i with
  | callNn | rst38 => exact .inr ⟨rfl, _, rfl, rfl⟩
  | _ => exact .inl ⟨rfl, rfl, rfl⟩

theorem retiredFor_reg_of_not_mem (I : Implementation) {i : Instr} {r : Reg} (h : r ∉ regsWritten i) (s : State) :
    (retiredFor I i s).reg r = s.reg r := by
  cases i with
  | nop | jpNn | callNn | rst38 | retPe => cases r <;> rfl
  | incB | djnzE =>
    cases r with
    | b => simp [regsWritten] at h
    | _ => rfl
  | ldABc | orB =>
    cases r with
    | a => simp [regsWritten] at h
    | _ => rfl
  | ldHlNn =>
    cases r with
    | h | l => simp [regsWritten] at h
    | _ => rfl
  | subN | addAHl =>
    cases r with
    | a | f => simp [regsWritten] at h
    | _ => rfl
  | addHlHl =>
    cases r with
    | h | l | f => simp [regsWritten] at h
    | _ => rfl

/-- No row of R23's table lists `D` or `E`. -/
theorem not_mem_regsWritten_d_e (i : Instr) : Reg.d ∉ regsWritten i ∧ Reg.e ∉ regsWritten i := by
  cases i <;> simp [regsWritten]

theorem retiredFor_d (I : Implementation) (i : Instr) (s : State) : (retiredFor I i s).d = s.d :=
  retiredFor_reg_of_not_mem I (not_mem_regsWritten_d_e i).1 s

theorem retiredFor_e (I : Implementation) (i : Instr) (s : State) : (retiredFor I i s).e = s.e :=
  retiredFor_reg_of_not_mem I (not_mem_regsWritten_d_e i).2 s

/-! ## What every instruction and every step keeps, retired or halted -/

/-- `t` keeps of `s` all that an instruction which halts keeps (`Partially`), `pc` apart. -/
def KeepsParts (L : FlagLayout) (s t : State) : Prop := Partially L s { t with pc := s.pc }

theorem Partially.keepsParts {L : FlagLayout} {s u : State} (h : Partially L s u) (r : RunState) :
    KeepsParts L s { u with run := r } where
  mem := h.mem
  d := h.d
  e := h.e
  unused := h.unused
  pc := rfl
  stack_size := h.stack_size
  stack_wf := h.stack_wf
  sp_le := h.sp_le

theorem retiredFor_stack_partially (I : Implementation) (i : Instr) (s : State) :
    (retiredFor I i s).stack.size = s.stack.size ∧
    (s.stack.wf = true → (retiredFor I i s).stack.wf = true) ∧ (retiredFor I i s).sp.toNat ≤ s.sp.toNat := by
  rcases retiredFor_stack_cases I i s with ⟨-, hstack, hsp⟩ | ⟨-, w, hstack, hsp⟩
  · rw [hstack, hsp]
    exact ⟨rfl, id, Nat.le_refl _⟩
  · rw [hstack, hsp]
    have h := partially_pushed16 I.flags w s
    exact ⟨h.stack_size, h.stack_wf, h.sp_le⟩

theorem retiredFor_keepsParts (I : Implementation) (i : Instr) (s : State) :
    KeepsParts I.flags s (retiredFor I i s) :=
  have ⟨hsize, hwf, hsp⟩ := retiredFor_stack_partially I i s
  { mem := retiredFor_mem I i s
    d := retiredFor_d I i s
    e := retiredFor_e I i s
    unused := by
      show (retiredFor I i s).f &&& _ = _
      rw [retiredFor_f, writeFlags_and_unusedBits]
    pc := rfl
    stack_size := hsize
    stack_wf := hwf
    sp_le := hsp }

theorem execFor_keepsParts {I : Implementation} {i : Instr} {s t : State} (h : execFor I i s = .next t) :
    KeepsParts I.flags s t := by
  rcases execFor_ends I i s with ⟨-, he⟩ | ⟨f, u, -, he, hp⟩
  · cases he.symm.trans h
    exact retiredFor_keepsParts I i s
  · cases he.symm.trans h
    exact hp.keepsParts _

theorem stepFor_keepsParts {I : Implementation} {s t : State} (h : stepFor I s = .next t) :
    KeepsParts I.flags s t := by
  obtain ⟨-, ⟨i, -, -, he⟩ | ⟨f, rfl⟩⟩ := stepFor_cases h
  · exact execFor_keepsParts he
  · exact (Partially.refl _ s).keepsParts _

theorem inv_of_keepsParts {L : FlagLayout} {s t : State} (hs : Inv s) (h : KeepsParts L s t) : Inv t where
  mem_wf := h.mem ▸ hs.mem_wf
  mem_size_pos := h.mem ▸ hs.mem_size_pos
  mem_size_le := h.mem ▸ hs.mem_size_le
  stack_wf := h.stack_wf hs.stack_wf
  stack_size_le := h.stack_size ▸ hs.stack_size_le
  sp_le := h.stack_size ▸ h.sp_le.trans hs.sp_le

theorem untouchedParts_of_keepsParts {L : FlagLayout} {p : Params} {s t : State} (hs : UntouchedParts L p s)
    (h : KeepsParts L s t) : UntouchedParts L p t where
  mem_size := h.mem ▸ hs.mem_size
  mem_get := h.mem ▸ hs.mem_get
  d_zero := h.d.trans hs.d_zero
  e_zero := h.e.trans hs.e_zero
  unused_zero := h.unused.trans hs.unused_zero
  stack_size := h.stack_size.trans hs.stack_size
  sp_le := h.sp_le.trans hs.sp_le

/-- Construction starts with what no step changes, under any layout: the flag byte is 0. -/
theorem untouchedParts_initial (L : FlagLayout) (p : Params) : UntouchedParts L p (State.initial p) where
  mem_size := rfl
  mem_get := Memory.get_ofImage p.memSize p.image
  d_zero := rfl
  e_zero := rfl
  unused_zero := BitVec.zero_and
  stack_size := rfl
  sp_le := Nat.mod_le _ _

theorem untouchedParts_of_reachable {p : Params} {s : State} (h : Reachable p s) : UntouchedParts flagLayout p s := by
  induction h with
  | start hs =>
    obtain ⟨-, rfl⟩ := (construct_ok_iff p _).1 hs
    exact untouchedParts_initial flagLayout p
  | step _ ht ih =>
    rw [step_eq_stepFor] at ht
    exact untouchedParts_of_keepsParts ih (stepFor_keepsParts ht)

/-! ## Two runs of one instruction -/

theorem exec_run {i : Instr} {s t : State} (hrun : s.run = .running) (h : exec i s = .next t) :
    t.run = runStateOf (haltCause i s) :=
  execFor_run hrun (exec_eq_execFor i s ▸ h)

/-- Two states in which an instruction has the same halt cause: it ends in both the same way. -/
theorem exec_ends_alike {i : Instr} {s s' t t' : State} (hrun : s.run = .running) (hrun' : s'.run = .running)
    (hcause : haltCause i s' = haltCause i s) (ht : exec i s = .next t) (ht' : exec i s' = .next t') :
    t'.run = t.run ∧ (t.run = .running → t = retired i s ∧ t' = retired i s') := by
  have hsame : t'.run = t.run := by
    rw [exec_run hrun ht, exec_run hrun' ht', hcause]
  exact ⟨hsame, fun htrun => ⟨(exec_retires ht htrun).2, (exec_retires ht' (hsame.trans htrun)).2⟩⟩

theorem haltCause_of_other_cells (i : Instr) (s : State) (cells' : List Host.Cell) :
    haltCause i { s with stack := { s.stack with cells := cells' } } = haltCause i s := by
  cases i <;> rfl

theorem haltCause_of_other_d_e (i : Instr) (s : State) (d' e' : Byte) :
    haltCause i { s with d := d', e := e' } = haltCause i s := by
  cases i <;> rfl

theorem retiredFor_with_stack_of_other_cells (I : Implementation) (i : Instr) (s : State) (cells' : List Host.Cell)
    (m : Memory) :
    { retiredFor I i { s with stack := { s.stack with cells := cells' } } with stack := m } =
      { retiredFor I i s with stack := m } := by
  cases i <;> rfl

theorem retiredFor_of_other_d_e (I : Implementation) (i : Instr) (s : State) (d' e' : Byte) :
    retiredFor I i { s with d := d', e := e' } = { retiredFor I i s with d := d', e := e' } := by
  cases i <;> rfl

theorem retiredFor_with_f_of_other_f (I : Implementation) (i : Instr) (s : State) (f' g : Byte) :
    { retiredFor I i { s with f := f' } with f := g } = { retiredFor I i s with f := g } := by
  cases i <;> rfl

end Sys2Proof.Machine

/-! ## The obligations -/

namespace Sys2Proof.Proofs

open Sys2Proof.Machine Sys2Proof.Safety

/-- Settles O51: what a step keeps, retired or halted, is enough for the invariant. -/
theorem stepKeepsInvariant : Obligations.StepKeepsInvariant := by
  intro s t hs h
  rw [step_eq_stepFor] at h
  exact inv_of_keepsParts hs (stepFor_keepsParts h)

/-- Settles O54: under every choice of the parameters, what a step keeps includes every part the statement lists. -/
theorem stepKeepsUntouchedParts : Obligations.StepKeepsUntouchedParts := by
  intro I p s t hs h
  exact untouchedParts_of_keepsParts hs (stepFor_keepsParts h)

/-- Settles O55: a step that retires executes the fetched instruction, and a call without a halt cause pushes two bytes
that fit. -/
theorem retiringStepTakesTwoStackBytesPerCall : Obligations.RetiringStepTakesTwoStackBytesPerCall := by
  intro i s t hfetched hstep htrun
  obtain ⟨hrun, hpc, hdecoded⟩ := fetched_eq_some hfetched
  rw [step_exec hrun hpc hdecoded] at hstep
  obtain ⟨hcause, rfl⟩ := exec_retires hstep htrun
  rcases retiredFor_stack_cases decidedDefaults i s with ⟨hcall, -, hsp⟩ | ⟨hcall, w, -, hsp⟩
  · simp [hcall, hsp]
  · obtain ⟨hroom, -⟩ := room_of_haltCause_eq_none hcall hcause
    rw [hsp, pushed16_sp_toNat, if_pos hcall]
    omega

/-- Settles O32: the other bits share nothing with the flag's mask, and a cleared flag has none of its mask's bits. -/
theorem flagBitIsolation : Obligations.FlagBitIsolation := by
  intro L _ k f0
  have hdisjoint : maskOf L k &&& ~~~(maskOf L k) = 0#8 := by simp
  refine ⟨?_, setFlagBit_and_mask L k false _⟩
  rw [setFlagBit_and_of_disjoint _ _ hdisjoint, setFlagBit_and_of_disjoint _ _ hdisjoint]

/-- Settles O33: the masks of a legal layout are single bits that differ. -/
theorem flagAccessorLaws : Obligations.FlagAccessorLaws := by
  intro L hL k b f
  exact ⟨getFlagBit_setFlagBit_same hL k b f, setFlagBit_and_unusedBits L k b f, fun j hjk =>
    ⟨getFlagBit_setFlagBit_other hL hjk b f, fun b' => setFlagBit_comm hL hjk b b' f⟩⟩

/-- Settles O38: retirement follows R23's table register by register, and only a push moves `sp`. -/
theorem registerFrame : Obligations.RegisterFrame := by
  intro i s t _ h htrun
  obtain ⟨-, rfl⟩ := exec_retires h htrun
  refine ⟨fun r hr => retiredFor_reg_of_not_mem decidedDefaults hr s, fun hnot => ?_⟩
  rcases retiredFor_stack_cases decidedDefaults i s with ⟨-, -, hsp⟩ | ⟨hcall, -⟩
  · exact hsp
  · rw [hnot] at hcall; cases hcall

/-- Settles O39: `F` after retirement is `F` before it with the flags of R30's table written, one after another. -/
theorem flagFrame : Obligations.FlagFrame := by
  intro i s t _ h htrun
  obtain ⟨-, rfl⟩ := exec_retires h htrun
  refine ⟨fun k hk => ?_, (retiredFor_keepsParts decidedDefaults i s).unused⟩
  rw [← flagWrites_fst i s] at hk
  rw [State.flag_eq, State.flag_eq, retiredFor_f]
  exact getFlagBit_writeFlags_of_not_mem flagLayout_wf hk s.f

/-- Settles O40: Memory as a whole is among what every instruction and every step keeps. -/
theorem memoryFrame : Obligations.MemoryFrame := by
  intro i s t h
  have hmem : t.mem = s.mem := by
    rw [exec_eq_execFor, step_eq_stepFor] at h
    rcases h with h | h
    · exact (execFor_keepsParts h).mem
    · exact (stepFor_keepsParts h).mem
  exact ⟨congrArg Memory.size hmem, fun a => congrArg (Memory.get · a) hmem⟩

/-- Settles O41: a call that retires had room for two bytes, so the two it stores are at `sp - 1` and `sp - 2`. -/
theorem stackFrame : Obligations.StackFrame := by
  intro i s t _ _ h htrun
  obtain ⟨hcause, rfl⟩ := exec_retires h htrun
  refine ⟨(retiredFor_stack_partially decidedDefaults i s).1, fun a ha => ?_⟩
  rcases retiredFor_stack_cases decidedDefaults i s with ⟨-, hstack, -⟩ | ⟨hcall, w, hstack, -⟩
  · rw [hstack]
  · obtain ⟨hroom, -⟩ := room_of_haltCause_eq_none hcall hcause
    obtain ⟨h1, h2⟩ := ha hcall
    rw [hstack]
    exact pushed16_stack_get_other (by omega) (by omega)

/-- Settles O43: no halt cause mentions `F`, and neither does a value that retirement writes. -/
theorem noInstructionReadsFlags : Obligations.NoInstructionReadsFlags := by
  intro i s t t' f' hrun ht ht'
  obtain ⟨hsame, hretired⟩ := exec_ends_alike (s' := { s with f := f' }) hrun hrun (haltCause_of_other_f i s f') ht ht'
  refine ⟨hsame, fun htrun => ?_⟩
  obtain ⟨rfl, rfl⟩ := hretired htrun
  refine ⟨retiredFor_with_f_of_other_f decidedDefaults i s f' 0#8, fun k hk => ?_⟩
  rw [← flagWrites_fst i s] at hk
  rw [State.flag_eq, State.flag_eq, retiredFor_f, retiredFor_f, flagWrites_of_other_f]
  exact getFlagBit_writeFlags_of_mem flagLayout_wf hk s.f f'

/-- Settles O44: no halt cause mentions the Stack's contents, and retirement takes nothing from them but themselves. -/
theorem noInstructionReadsStack : Obligations.NoInstructionReadsStack := by
  intro i s t t' cells' hrun ht ht'
  obtain ⟨hsame, hretired⟩ := exec_ends_alike (s' := { s with stack := { s.stack with cells := cells' } }) hrun hrun
    (haltCause_of_other_cells i s cells') ht ht'
  refine ⟨hsame, fun htrun => ?_⟩
  obtain ⟨rfl, rfl⟩ := hretired htrun
  refine ⟨retiredFor_with_stack_of_other_cells decidedDefaults i s cells' s.stack, ?_⟩
  rw [(retiredFor_stack_partially _ _ _).1, (retiredFor_stack_partially _ _ _).1]

/-- Settles O45: no halt cause mentions `D` or `E`, and retirement carries them along. -/
theorem noInstructionUsesDE : Obligations.NoInstructionUsesDE := by
  intro i s t t' d' e' hrun ht ht'
  obtain ⟨hsame, hretired⟩ := exec_ends_alike (s' := { s with d := d', e := e' }) hrun hrun
    (haltCause_of_other_d_e i s d' e') ht ht'
  refine ⟨hsame, fun htrun => ?_⟩
  obtain ⟨rfl, rfl⟩ := hretired htrun
  exact ⟨retiredFor_of_other_d_e decidedDefaults i s d' e', retiredFor_d _ i s, retiredFor_e _ i s⟩

/-- Settles O46: the ranges of R4 let construction through, and keep `pc` and `sp` below 65536. -/
theorem constructionGivesResetValues : Obligations.ConstructionGivesResetValues := by
  intro p hmem hmem' hstack hpc himage
  have hwf : p.wf = true := (Params.wf_iff p).2 ⟨hmem, hmem', hstack, hpc, himage⟩
  refine ⟨State.initial p, (construct_ok_iff p _).2 ⟨hwf, rfl⟩, fun r => by cases r <;> rfl,
    Nat.mod_eq_of_lt (by omega), Nat.mod_eq_of_lt (by omega), rfl, fun a ha => ?_, fun a ha _ => ?_, rfl,
    fun a _ => Memory.get_ofImage p.stackSize [] a, rfl⟩
  · exact (Memory.get_ofImage p.memSize p.image a).trans (List.getD_eq_getElem p.image 0#8 ha)
  · exact (Memory.get_ofImage p.memSize p.image a).trans (List.getD_eq_default p.image 0#8 ha)

/-- Settles O52: construction establishes `UntouchedParts` and every step keeps it. -/
theorem reachableStatesKeepUntouchedParts : Obligations.ReachableStatesKeepUntouchedParts := by
  intro p s h
  have hs := untouchedParts_of_reachable h
  exact ⟨hs.mem_size, hs.mem_get, hs.d_zero, hs.e_zero, hs.unused_zero, hs.stack_size, hs.sp_le⟩

/-- Settles O50: `State.reset` is the state R210 builds from parameters in the ranges of R4. -/
theorem invariantHoldsAtReset : Obligations.InvariantHoldsAtReset := by
  have hwf : Config.params.wf = true := by decide
  exact inv_initial hwf

end Sys2Proof.Proofs

/-! # Proofs: Memory and the Stack (spec/20_memory.md)

Single accesses and their bounds, what a write does to a buffer, and pops with the push they undo. The last part settles the
obligations from the laws of the parts before it. -/

namespace Sys2Proof.Machine

/-! ## Single accesses (R50 to R53) -/

/-- R50 to R53 write the failing test as two alternatives; the model has one test of what is inside. -/
theorem Memory.not_inBounds_of_outside {m : Memory} {addr : Int} (h : addr < 0 ∨ (m.size : Int) ≤ addr) :
    ¬ m.inBounds addr := by
  rintro ⟨hlow, hhigh⟩
  omega

/-- What R51 and R53 say of the buffer after a write inside it. -/
theorem Memory.set_replaces_one_byte {m : Memory} {addr : Int} (v : Byte) (hm : m.wf = true) (h : m.inBounds addr) :
    (m.set addr.toNat v).get addr.toNat = v ∧
    (∀ a : Nat, a ≠ addr.toNat → (m.set addr.toNat v).get a = m.get a) ∧
    (m.set addr.toNat v).size = m.size ∧ (m.set addr.toNat v).wf = true := by
  obtain ⟨hlow, hhigh⟩ := h
  have haddr : addr.toNat < m.size := by omega
  exact ⟨Memory.get_set_same v hm haddr, fun _ ha => Memory.get_set_other m v ha, Memory.set_size m _ v,
    Memory.wf_set _ v hm⟩

/-! ## Pops (R59) -/

theorem pop8_next {s : State} (h : s.sp.toNat < s.stack.size) (k : Byte → State → Result) :
    pop8 s k = k (s.stack.get s.sp.toNat) (s.setSp (BitVec.ofNat 16 (s.sp.toNat + 1))) :=
  stackRead_next ⟨by omega, by omega⟩ _

theorem pop8_raise {s : State} (h : s.stack.size ≤ s.sp.toNat) (k : Byte → State → Result) :
    pop8 s k = raise (.stackOutOfBounds s.sp.toNat) s :=
  stackRead_raise (Memory.not_inBounds_of_outside (.inr (by omega))) _

/-- A pop of two bytes that are on the Stack goes on with the upper one as the high byte. `hfits` keeps the address of the
upper byte a 16-bit one. -/
theorem pop16_next {s : State} (hfits : s.sp.toNat + 1 ≤ 0xFFFF) (h : s.sp.toNat + 1 < s.stack.size)
    (k : Word → State → Result) :
    pop16 s k = k (pairWord (s.stack.get (s.sp.toNat + 1)) (s.stack.get s.sp.toNat))
      (s.setSp (BitVec.ofNat 16 (s.sp.toNat + 2))) := by
  have hsp : (BitVec.ofNat 16 (s.sp.toNat + 1)).toNat = s.sp.toNat + 1 := by
    rw [BitVec.toNat_ofNat]
    omega
  rw [pop16, pop8_next (by omega), pop8_next (by rwa [State.setSp_sp, hsp]), State.setSp_sp, State.setSp_stack, hsp]
  rfl

/-! ## A pop after a push (R58, R59) -/

theorem pushed16_stack_get_low {w : Word} {s : State} (hwf : s.stack.wf = true) (h2 : 2 ≤ s.sp.toNat)
    (hs : s.sp.toNat ≤ s.stack.size) : (pushed16 w s).stack.get (pushed16 w s).sp.toNat = loByte w := by
  rw [pushed16_stack_get hwf h2 hs, pushed16_sp_toNat, if_pos rfl]

theorem pushed16_stack_get_high {w : Word} {s : State} (hwf : s.stack.wf = true) (h2 : 2 ≤ s.sp.toNat)
    (hs : s.sp.toNat ≤ s.stack.size) : (pushed16 w s).stack.get ((pushed16 w s).sp.toNat + 1) = hiByte w := by
  rw [pushed16_stack_get hwf h2 hs, pushed16_sp_toNat, if_neg (by omega), if_pos (by omega)]

theorem pop16_pushed16 {w : Word} {s : State} (hwf : s.stack.wf = true) (h2 : 2 ≤ s.sp.toNat)
    (hs : s.sp.toNat ≤ s.stack.size) (k : Word → State → Result) :
    pop16 (pushed16 w s) k = k w ((pushed16 w s).setSp s.sp) := by
  have hsp : (pushed16 w s).sp.toNat + 2 = s.sp.toNat := by
    rw [pushed16_sp_toNat]
    omega
  have hlt := s.sp.isLt
  rw [pop16_next (by omega) (by rw [pushed16_stack_size]; omega), pushed16_stack_get_low hwf h2 hs,
    pushed16_stack_get_high hwf h2 hs, pairWord_hi_lo, hsp, BitVec.ofNat_toNat, BitVec.setWidth_eq]

end Sys2Proof.Machine

/-! ## The obligations -/

namespace Sys2Proof.Proofs

open Sys2Proof.Machine

/-- Settles O36: a write that passes its bounds check goes on with `Memory.set`, which replaces one byte. -/
theorem writesChangeOneByte : Obligations.WritesChangeOneByte := by
  intro addr v s
  refine ⟨fun hwf hlow hhigh => ?_, fun hout k => ?_, fun hwf hlow hhigh => ?_, fun hout k => ?_⟩
  · exact ⟨_, memWrite_next v ⟨hlow, hhigh⟩, Memory.set_replaces_one_byte v hwf ⟨hlow, hhigh⟩⟩
  · exact ⟨_, memWrite_raise v (Memory.not_inBounds_of_outside hout) k, rfl⟩
  · exact ⟨_, stackWrite_next v ⟨hlow, hhigh⟩, Memory.set_replaces_one_byte v hwf ⟨hlow, hhigh⟩⟩
  · exact ⟨_, stackWrite_raise v (Memory.not_inBounds_of_outside hout) k, rfl⟩

/-- Settles O37: a push that fits leaves the two bytes where the pop reads them, and the empty Stack has none. -/
theorem popIsInverseOfPush : Obligations.PopIsInverseOfPush := by
  refine ⟨fun w s hwf h2 hs => ?_, fun s k hsp => ?_⟩
  · refine ⟨pushed16 w s, push16_next h2 hs, pushed16_sp h2, ?_, ?_, pop16_pushed16 hwf h2 hs⟩
    · rw [pushed16_stack_get_low hwf h2 hs, loByte_toNat]
    · rw [pushed16_stack_get_high hwf h2 hs, hiByte_toNat]
  · rw [← hsp]
    exact ⟨_, pop8_raise (Nat.le_of_eq hsp.symm) k, rfl⟩

/-- Settles O35: a read has one bounds test, and passes on the byte or raises. -/
theorem readsCheckBounds : Obligations.ReadsCheckBounds := by
  intro addr s k
  refine ⟨fun hlow hhigh => ?_, fun hout => ?_, fun hlow hhigh => ?_, fun hout => ?_⟩
  · exact memRead_next ⟨hlow, hhigh⟩ k
  · exact ⟨_, memRead_raise (Memory.not_inBounds_of_outside hout) k, rfl⟩
  · exact stackRead_next ⟨hlow, hhigh⟩ k
  · exact ⟨_, stackRead_raise (Memory.not_inBounds_of_outside hout) k, rfl⟩

end Sys2Proof.Proofs

/-! # Proofs: encoding (spec/30_encoding.md)

The decoder on byte strings and in a step. What an opcode byte decodes to is said once, with no operand bytes in it
(`decode_eq_map_withOperandBytes`); when a byte string decodes is said once, as an equivalence (`decodeBytes_ok_iff`). The
last part settles the obligations from these and from the laws of the parts before them. -/

namespace Sys2Proof

/-! ## Lengths (R80, R84) -/

theorem encodedLength : ∀ i : Instr, Laws.EncodedLength.Statement i
  | .nop => Laws.EncodedLength.nop
  | .jpNn nn => Laws.EncodedLength.jpNn nn
  | .incB => Laws.EncodedLength.incB
  | .ldABc x1 x2 => Laws.EncodedLength.ldABc x1 x2
  | .ldHlNn hh ll => Laws.EncodedLength.ldHlNn hh ll
  | .callNn nn => Laws.EncodedLength.callNn nn
  | .rst38 => Laws.EncodedLength.rst38
  | .orB => Laws.EncodedLength.orB
  | .subN n => Laws.EncodedLength.subN n
  | .djnzE e => Laws.EncodedLength.djnzE e
  | .addAHl => Laws.EncodedLength.addAHl
  | .addHlHl => Laws.EncodedLength.addHlHl
  | .retPe => Laws.EncodedLength.retPe

theorem encode_length (M : OpcodeMap) (i : Instr) : (encode M i).length = i.length := (encodedLength i M).1

theorem Instr.one_le_length (i : Instr) : 1 ≤ i.length := (encodedLength i opcodes).2.1

theorem Instr.length_le_three (i : Instr) : i.length ≤ 3 := (encodedLength i opcodes).2.2

/-! ## Decoding byte strings (R81, R83) -/

theorem byteAt_eq_getElem {bs : List Byte} {k : Nat} (h : k < bs.length) : byteAt bs k = bs[k] :=
  List.getD_eq_getElem bs 0#8 h

/-- The bytes the decoder is given of a string are the front of it, as far as the string reaches. -/
theorem take_byteAt {bs : List Byte} {n : Nat} (h3 : n ≤ 3) (h : n ≤ bs.length) :
    [byteAt bs 0, byteAt bs 1, byteAt bs 2].take n = bs.take n := by
  have hmap : [byteAt bs 0, byteAt bs 1, byteAt bs 2] = (List.range 3).map (byteAt bs) := rfl
  refine List.ext_getElem (by simp [h3, h]) fun k hk _ => ?_
  have hlt : k < bs.length := by
    rw [List.length_take] at hk
    omega
  simp [hmap, byteAt_eq_getElem hlt]

/-- When a byte string decodes: its first bytes do, and it is long enough. An empty string is not, since no instruction
is empty. -/
theorem decodeBytes_ok_iff {M : OpcodeMap} {bs rest : List Byte} {i : Instr} :
    decodeBytes M bs = .ok (i, rest) ↔
      decode M (byteAt bs 0) (byteAt bs 1) (byteAt bs 2) = .ok i ∧ i.length ≤ bs.length ∧ bs.drop i.length = rest := by
  cases bs with
  | nil =>
    have hpos := i.one_le_length
    refine ⟨fun h => (by cases h), fun ⟨_, hlen, _⟩ => absurd hlen ?_⟩
    rw [List.length_nil]
    omega
  | cons b0 tail =>
    show decodeBytes M (b0 :: tail) = _ ↔ decode M b0 (byteAt tail 0) (byteAt tail 1) = _ ∧ _
    rw [decodeBytes]
    cases hd : decode M b0 (byteAt tail 0) (byteAt tail 1) with
    | error r => simp
    | ok j =>
      by_cases hlen : (b0 :: tail).length < j.length
      · simp only [if_pos hlen]
        refine ⟨fun h => (by cases h), ?_⟩
        rintro ⟨h, hle, -⟩
        cases h
        omega
      · simp only [if_neg hlen]
        refine ⟨fun h => ?_, ?_⟩
        · cases h
          exact ⟨rfl, by omega, rfl⟩
        · rintro ⟨h, -, rfl⟩
          cases h
          rfl

/-! ## What the opcode byte alone fixes (R82) -/

/-- The bytes after the opcode only fill in operands: no row is chosen by them. -/
theorem decode_eq_map_withOperandBytes (M : OpcodeMap) (b0 b1 b2 : Byte) :
    decode M b0 b1 b2 = (decode M b0 0#8 0#8).map (withOperandBytes · b1 b2) := by
  simp only [decode, apply_ite (Except.map _)]
  rfl

@[simp] theorem withOperandBytes_length (i : Instr) (b1 b2 : Byte) : (withOperandBytes i b1 b2).length = i.length := by
  cases i <;> rfl

@[simp] theorem withOperandBytes_ctorIdx (i : Instr) (b1 b2 : Byte) :
    (withOperandBytes i b1 b2).ctorIdx = i.ctorIdx := by
  cases i <;> rfl

/-! ## The unknown opcodes (R85) -/

theorem exists_opcodeOf_of_mem {M : OpcodeMap} {b : Byte} (h : b ∈ M.bytes) : ∃ i : Instr, b = opcodeOf M i := by
  have hrows : M.bytes = [Instr.nop, .jpNn 0#16, .incB, .ldABc 0#8 0#8, .ldHlNn 0#8 0#8, .callNn 0#16, .rst38, .orB,
      .subN 0#8, .djnzE 0#8, .addAHl, .addHlHl, .retPe].map (opcodeOf M) := rfl
  obtain ⟨i, -, hi⟩ := List.mem_map.1 (hrows ▸ h)
  exact ⟨i, hi.symm⟩

theorem decode_eq_unknownOpcode_iff {M : OpcodeMap} (hM : M.wf = true) (b0 b1 b2 : Byte) :
    decode M b0 b1 b2 = .error (.unknownOpcode b0) ↔ b0 ∉ M.bytes := by
  refine ⟨fun h hmem => ?_, fun h => decode_of_not_mem h b1 b2⟩
  obtain ⟨i, hi⟩ := exists_opcodeOf_of_mem hmem
  rw [decode_opcodeOf hM hi] at h
  cases h

end Sys2Proof

namespace Sys2Proof.Machine

/-! ## A step at an opcode (R83, R100) -/

/-- The step of a running machine whose `pc` addresses the opcode byte of `i`: the operands of `i` itself play no part. -/
theorem step_of_opcode {s : State} (i : Instr) (hrun : s.run = .running) (hpc : s.pc.toNat < s.mem.size)
    (hop : s.mem.get s.pc.toNat = opcodeOf opcodes i) :
    step s = exec (withOperandBytes i (s.mem.get (s.pc.toNat + 1)) (s.mem.get (s.pc.toNat + 2))) s :=
  step_exec hrun ⟨by omega, by omega⟩ (decode_opcodeOf opcodes_wf hop _ _)

end Sys2Proof.Machine

/-! ## The obligations -/

namespace Sys2Proof.Proofs

open Sys2Proof.Machine

/-- Settles O1: the string begins with the encoding, so its first bytes decode to the instruction, and what lies past the
instruction's length is what was appended. -/
theorem decodeOfEncodedInstruction : Obligations.DecodeOfEncodedInstruction := by
  intro M hM i _ rest
  refine decodeBytes_ok_iff.2 ⟨?_, ?_, ?_⟩
  · refine decode_of_encode (b := byteAt (encode M i ++ rest)) hM fun k hk => ?_
    rw [byteAt_eq_getElem (by rw [List.length_append]; omega), List.getElem_append_left hk]
  · rw [List.length_append, encode_length]
    omega
  · rw [← encode_length M i, List.drop_left]

/-- Settles O2: the encoding of the decoded instruction is as much of the string as the instruction is long. -/
theorem encodingOfDecodedBytes : Obligations.EncodingOfDecodedBytes := by
  intro M bs i rest h
  obtain ⟨hd, hlen, rfl⟩ := decodeBytes_ok_iff.1 h
  refine ⟨?_, encode_length M i⟩
  rw [encode_of_decode hd, take_byteAt i.length_le_three hlen, List.take_append_drop]

/-- Settles O3: the row that decodes the opcode byte before two zero bytes decodes it before any two, and filling in
operands changes neither the constructor nor the length. -/
theorem opcodeByteFixesInstruction : Obligations.OpcodeByteFixesInstruction := by
  intro M b0
  cases hd : decode M b0 0#8 0#8 with
  | ok i =>
    refine .inl ⟨i.length, i.ctorIdx, i.one_le_length, i.length_le_three, fun b1 b2 => ?_⟩
    refine ⟨withOperandBytes i b1 b2, ?_, withOperandBytes_length i b1 b2, withOperandBytes_ctorIdx i b1 b2⟩
    rw [decode_eq_map_withOperandBytes, hd, Except.map]
  | error r =>
    refine .inr fun b1 b2 => ?_
    rw [decode_eq_map_withOperandBytes, hd, decode_error hd, Except.map]

/-- Settles O7: each opcode byte is that of its instruction in the map of D2, and the operands are the two bytes after it;
execution drops the two of `LD A,(BC)`. -/
theorem operandsComeFromMemory : Obligations.OperandsComeFromMemory := by
  intro s hrun op b1 b2
  refine ⟨fun hop hpc => ?_, fun hop hpc => ?_, fun hop hpc => ?_, fun hop hpc => ?_, fun hop hpc => ?_,
    fun hop hpc x1 x2 => ?_⟩
  · exact step_of_opcode (.jpNn 0#16) hrun (by omega) hop
  · exact step_of_opcode (.callNn 0#16) hrun (by omega) hop
  · exact step_of_opcode (.ldHlNn 0#8 0#8) hrun (by omega) hop
  · exact step_of_opcode (.subN 0#8) hrun (by omega) hop
  · exact step_of_opcode (.djnzE 0#8) hrun (by omega) hop
  · exact step_of_opcode (.ldABc x1 x2) hrun hpc hop

/-- Settles O4: the decoder rejects the bytes that are no opcode, and the thirteen opcodes of D2 are what the ranges
leave out. -/
theorem unknownOpcodeRanges : Obligations.UnknownOpcodeRanges := by
  refine ⟨fun b0 b1 b2 => ?_, rfl⟩
  rw [decode_eq_unknownOpcode_iff opcodes_wf]
  have := b0.isLt
  simp only [OpcodeMap.bytes, opcodes, List.mem_cons, List.not_mem_nil, or_false, not_or, ← BitVec.toNat_inj,
    BitVec.reduceToNat, exists_eq_or_imp, exists_eq_left]
  omega

/-- Settles O5: the thirteen words are closed terms, which the decoder evaluates. -/
theorem tableWordsDecode : Obligations.TableWordsDecode := by
  unfold Obligations.TableWordsDecode
  decide

end Sys2Proof.Proofs

/-! # Proofs: the execution loop (spec/40_execution_loop.md)

What a step does is said once for each way it can go (fetch fault, unknown opcode, execution), together with the cause of
R186 in that case; `pc` after retirement is said as one number, `netPc`, that fits 16 bits; and a run is cut in two by
`runFor_add`. The last part settles the obligations from these. -/

namespace Sys2Proof.Machine

open Sys2Proof.Safety

/-! ## Outcomes of an instruction and of a step (R100, R110, R186) -/

theorem exec_next (i : Instr) (s : State) : ∃ t, exec i s = .next t := by
  rcases exec_ends i s with ⟨-, he⟩ | ⟨f, u, -, he, -⟩
  · exact ⟨_, he⟩
  · exact ⟨_, he⟩

theorem inBounds_pc_iff (s : State) : s.mem.inBounds s.pc.toNat ↔ s.pc.toNat < s.mem.size := by
  simp only [Memory.inBounds]
  omega

theorem stepCause_fetch_raise {s : State} (h : ¬ s.mem.inBounds s.pc.toNat) :
    stepCause s = some (.memOutOfBounds s.pc.toNat) := by
  rw [stepCause, stepCauseBy, memCause_raise h]

theorem stepCause_unknown {s : State} {r : Reject} (h : s.mem.inBounds s.pc.toNat) (hd : s.decoded = .error r) :
    stepCause s = some (.unknownOpcode (s.codeByte 0) s.pc) := by
  rw [State.decoded] at hd
  rw [stepCause, stepCauseBy, memCause_next h, hd]

theorem stepCause_exec {s : State} {i : Instr} (h : s.mem.inBounds s.pc.toNat) (hd : s.decoded = .ok i) :
    stepCause s = haltCause i s := by
  rw [State.decoded] at hd
  rw [stepCause, stepCauseBy, memCause_next h, hd]

/-- A running machine takes a step, and the first cause of R186's list gives the run state after it. -/
theorem step_next_run {s : State} (hrun : s.run = .running) :
    ∃ t, step s = .next t ∧ t.run = runStateOf (stepCause s) := by
  by_cases hpc : s.mem.inBounds s.pc.toNat
  · cases hd : s.decoded with
    | ok i =>
      obtain ⟨t, ht⟩ := exec_next i s
      rw [step_exec hrun hpc hd, stepCause_exec hpc hd]
      exact ⟨t, ht, exec_run hrun ht⟩
    | error r =>
      rw [step_unknown hrun hpc hd, stepCause_unknown hpc hd]
      exact ⟨_, rfl, rfl⟩
  · rw [step_fetch_raise hrun hpc, stepCause_fetch_raise hpc]
    exact ⟨_, rfl, rfl⟩

theorem step_next_iff (s : State) : (∃ t, step s = .next t) ↔ s.run = .running := by
  refine ⟨fun ⟨t, ht⟩ => (step_cases ht).1, fun hrun => ?_⟩
  obtain ⟨t, ht, -⟩ := step_next_run hrun
  exact ⟨t, ht⟩

/-! ## `pc` after retirement (R102) -/

theorem pcCause_eq_none_iff (n : Nat) (s : State) : pcCause n s = none ↔ s.pc.toNat + n ≤ 0xFFFF := by
  simp [pcCause]

/-- An instruction without a halt cause has passed its range test, or goes to a 16-bit target. -/
theorem netPc_le_of_haltCause_eq_none {i : Instr} {s : State} (h : haltCause i s = none) : netPc i s ≤ 0xFFFF := by
  cases i with
  | nop | incB | orB | addHlHl | retPe => exact (pcCause_eq_none_iff 1 s).1 h
  | ldABc | ldHlNn => exact (pcCause_eq_none_iff 3 s).1 ((firstCause_eq_none_iff _).1 h _ (by simp))
  | subN => exact (pcCause_eq_none_iff 2 s).1 ((firstCause_eq_none_iff _).1 h _ (by simp))
  | addAHl => exact (pcCause_eq_none_iff 1 s).1 ((firstCause_eq_none_iff _).1 h _ (by simp))
  | jpNn nn | callNn nn => exact Nat.le_of_lt_succ nn.isLt
  | rst38 => simp [netPc]
  | djnzE e =>
    by_cases hb : s.b = 1#8
    · rw [haltCause, if_pos hb] at h
      rw [netPc, if_pos hb]
      exact (pcCause_eq_none_iff 2 s).1 h
    · rw [haltCause, if_neg hb] at h
      rw [netPc, if_neg hb, Nat.add_assoc]
      exact (pcCause_eq_none_iff (2 + e.toNat) s).1 ((firstCause_eq_none_iff _).1 h _ (by simp))

/-- Retirement writes the number of R102's table to `pc`, as a 16-bit word. -/
theorem retired_pc (i : Instr) (s : State) : (retired i s).pc = BitVec.ofNat 16 (netPc i s) := by
  cases i with
  | jpNn nn | callNn nn => rw [netPc, BitVec.ofNat_toNat, BitVec.setWidth_eq, retired, retiredFor]
  | djnzE => simp only [retiredFor, netPc, ne_eq, dec8_eq_zero_iff, ite_not, Nat.add_assoc]
  | _ => rfl

theorem retired_pc_toNat {i : Instr} {s : State} (h : haltCause i s = none) :
    (retired i s).pc.toNat = netPc i s := by
  rw [retired_pc, BitVec.toNat_ofNat, Nat.mod_eq_of_lt (Nat.lt_succ_of_le (netPc_le_of_haltCause_eq_none h))]

end Sys2Proof.Machine

/-! ## Runs (R105, R106) -/

namespace Sys2Proof.Safety

open Sys2Proof.Machine

theorem runFor_halted {s : State} {reason : Fault} (h : s.run = .halted reason) (k : Nat) : runFor k s = s := by
  cases k with
  | zero => rfl
  | succ k => rw [runFor, step_halted h]

theorem runFor_succ_of_next {s t : State} (h : step s = .next t) (k : Nat) : runFor (k + 1) s = runFor k t := by
  rw [runFor, h]

theorem runFor_add (j k : Nat) (s : State) : runFor (j + k) s = runFor k (runFor j s) := by
  induction j generalizing s with
  | zero => rw [Nat.zero_add, runFor]
  | succ j ih =>
    cases hrun : s.run with
    | halted reason => rw [runFor_halted hrun, runFor_halted hrun, runFor_halted hrun]
    | running =>
      obtain ⟨t, ht, -⟩ := step_next_run hrun
      rw [Nat.succ_add, runFor_succ_of_next ht, runFor_succ_of_next ht, ih]

/-- A run that has halted after `j` steps is where it is after more of them. -/
theorem runFor_eq_of_halted_of_le {j k : Nat} {s : State} {reason : Fault} (hjk : j ≤ k)
    (h : (runFor j s).run = .halted reason) : runFor k s = runFor j s := by
  rw [← Nat.add_sub_of_le hjk, runFor_add, runFor_halted h]

end Sys2Proof.Safety

/-! ## The obligations -/

namespace Sys2Proof.Proofs

open Sys2Proof.Machine Sys2Proof.Safety

/-- Settles O11: the only state without a step is a halted one, and an instruction retires or raises, either of which is a
next state. -/
theorem stepDefinedOnRunningStates : Obligations.StepDefinedOnRunningStates :=
  ⟨step_next_iff, exec_next⟩

/-- Settles O12: each instruction ends as its list of tests says, and a step puts the fetch and the decoder before them. -/
theorem haltCauseOfEveryStep : Obligations.HaltCauseOfEveryStep := by
  refine ⟨fun i s hrun => ?_, fun s hrun => step_next_run hrun⟩
  obtain ⟨t, ht⟩ := exec_next i s
  exact ⟨t, ht, exec_run hrun ht⟩

/-- Settles O13: of two runs from one state, the longer one stays in the state in which the shorter one has halted. -/
theorem runEndsAtMostOneWay : Obligations.RunEndsAtMostOneWay := by
  rintro s _ _ reason reason' ⟨j, rfl, hj⟩ ⟨k, rfl, hk⟩
  have hsame : runFor j s = runFor k s := by
    rcases Nat.le_total j k with hjk | hkj
    · exact (runFor_eq_of_halted_of_le hjk hj).symm
    · exact runFor_eq_of_halted_of_le hkj hk
  refine ⟨?_, hsame⟩
  rw [hsame, hk] at hj
  exact (RunState.halted.inj hj).symm

/-- Settles O42: an instruction that leaves the machine running retired, and without a halt cause the number of R102's
table is a 16-bit one. -/
theorem pcAfterRetirement : Obligations.PcAfterRetirement := by
  intro i s t _ h htrun
  obtain ⟨hcause, rfl⟩ := exec_retires h htrun
  exact retired_pc_toNat hcause

/-- Settles O6: the bytes at `pc` are the ones the step decodes. -/
theorem stepRunsDecodedInstruction : Obligations.StepRunsDecodedInstruction := by
  intro s i hrun hpc hd _
  exact step_exec hrun ((inBounds_pc_iff s).2 hpc) hd

/-- Settles O8: the fetch is the first thing a step does, so nothing has been written when it raises. -/
theorem fetchOutsideMemoryHalts : Obligations.FetchOutsideMemoryHalts := by
  intro s hrun hpc
  exact step_fetch_raise hrun fun h => absurd ((inBounds_pc_iff s).1 h) (Nat.not_lt.2 hpc)

/-- Settles O9: a byte outside the opcode map is rejected whatever follows it, before any instruction begins. -/
theorem unknownOpcodeHaltsUnchanged : Obligations.UnknownOpcodeHaltsUnchanged := by
  intro s hrun hpc hnot
  exact step_unknown hrun ((inBounds_pc_iff s).2 hpc) (decode_of_not_mem (b0 := s.codeByte 0) hnot _ _)

/-- Settles O10: a step that had a next state would have started from a running machine. -/
theorem haltedIsTerminal : Obligations.HaltedIsTerminal := by
  intro s reason h
  refine ⟨fun t ht => ?_, runFor_halted h⟩
  rw [step_halted h] at ht
  cases ht

end Sys2Proof.Proofs

/-! # Proofs: control transfer (spec/41_control_transfer.md)

Each instruction is decided by its halt cause: without one it ends in `retired`, with one it halts for that reason
(`exec_of_haltCause_eq_none`, `exec_of_haltCause_eq_some`). What a call's push leaves is said once, for both calls
(`PushedReturnAddress`). The last part settles the obligations from these. -/

namespace Sys2Proof

/-! ## Words and bytes (R5, R10, R124) -/

/-- The sum in R10 of a word's number and `n`, taken as a word, is a sum of words. -/
theorem ofNat_toNat_add (w : Word) (n : Nat) : BitVec.ofNat 16 (w.toNat + n) = w + BitVec.ofNat 16 n := by
  rw [BitVec.ofNat_add, BitVec.ofNat_toNat, BitVec.setWidth_eq]

namespace Machine

theorem dec8_toNat (b : Byte) : ((dec8 b).toNat : Int) = ((b.toNat : Int) - 1) % 256 := by
  rw [dec8, BitVec.toNat_ofInt]
  omega

open Safety

/-! ## How an instruction ends, by its halt cause (R186) -/

theorem exec_of_haltCause_eq_none {i : Instr} {s : State} (h : haltCause i s = none) :
    exec i s = .next (retired i s) := by
  rcases exec_ends i s with ⟨-, he⟩ | ⟨f, u, hc, -, -⟩
  · exact he
  · rw [h] at hc; cases hc

theorem exec_of_haltCause_eq_some {i : Instr} {s : State} {f : Fault} (h : haltCause i s = some f) :
    ∃ t, exec i s = .next t ∧ t.run = .halted f := by
  rcases exec_ends i s with ⟨hc, -⟩ | ⟨g, u, hc, he, -⟩
  · rw [h] at hc; cases hc
  · cases h.symm.trans hc
    exact ⟨_, he, rfl⟩

/-- Both operand bytes of a three-byte instruction are inside Memory when the last one is. -/
theorem inBounds_operands {s : State} (h : s.pc.toNat + 2 < s.mem.size) :
    s.mem.inBounds ((s.pc.toNat : Int) + 1) ∧ s.mem.inBounds ((s.pc.toNat : Int) + 2) :=
  ⟨⟨by omega, by omega⟩, ⟨by omega, by omega⟩⟩

theorem haltCause_jpNn_eq_none {nn : Word} {s : State} (h : s.pc.toNat + 2 < s.mem.size) :
    haltCause (.jpNn nn) s = none := by
  obtain ⟨h1, h2⟩ := inBounds_operands h
  simp only [haltCause, memCause_next h1, memCause_next h2, firstCause]

theorem haltCause_jpNn_first_operand {nn : Word} {s : State} (h : s.mem.size ≤ s.pc.toNat + 1) :
    haltCause (.jpNn nn) s = some (.memOutOfBounds ((s.pc.toNat : Int) + 1)) := by
  have h1 : ¬ s.mem.inBounds ((s.pc.toNat : Int) + 1) := Memory.not_inBounds_of_outside (.inr (by omega))
  simp only [haltCause, memCause_raise h1, firstCause]

theorem haltCause_jpNn_second_operand {nn : Word} {s : State} (h : s.mem.size = s.pc.toNat + 2) :
    haltCause (.jpNn nn) s = some (.memOutOfBounds ((s.pc.toNat : Int) + 2)) := by
  have h1 : s.mem.inBounds ((s.pc.toNat : Int) + 1) := ⟨by omega, by omega⟩
  have h2 : ¬ s.mem.inBounds ((s.pc.toNat : Int) + 2) := Memory.not_inBounds_of_outside (.inr (by omega))
  simp only [haltCause, memCause_next h1, memCause_raise h2, firstCause]

theorem haltCause_callNn_eq_none {nn : Word} {s : State} (hpc : s.pc.toNat + 3 ≤ 0xFFFF) (h2 : 2 ≤ s.sp.toNat)
    (hs : s.sp.toNat ≤ s.stack.size) (hmem : s.pc.toNat + 2 < s.mem.size) : haltCause (.callNn nn) s = none := by
  obtain ⟨hop1, hop2⟩ := inBounds_operands hmem
  have hpush : pushCause s = none := (pushCause_eq_none_iff s).2 ⟨h2, hs⟩
  simp only [haltCause, pcCause_next hpc, hpush, memCause_next hop1, memCause_next hop2, firstCause]

theorem haltCause_rst38_eq_none {s : State} (hpc : s.pc.toNat + 1 ≤ 0xFFFF) (h2 : 2 ≤ s.sp.toNat)
    (hs : s.sp.toNat ≤ s.stack.size) : haltCause .rst38 s = none := by
  have hpush : pushCause s = none := (pushCause_eq_none_iff s).2 ⟨h2, hs⟩
  simp only [haltCause, pcCause_next hpc, hpush, firstCause]

theorem haltCause_djnzE_eq_none_of_taken {e : Byte} {s : State} (hb : s.b ≠ 1#8) (hmem : s.pc.toNat + 1 < s.mem.size)
    (hpc : s.pc.toNat + (2 + e.toNat) ≤ 0xFFFF) : haltCause (.djnzE e) s = none := by
  have hop : s.mem.inBounds ((s.pc.toNat : Int) + 1) := ⟨by omega, by omega⟩
  simp only [haltCause, if_neg hb, memCause_next hop, pcCause_next hpc, firstCause]

/-! ## What a call leaves on the Stack (R58, R122, R123) -/

/-- `t` is `s` with the return address `pc + n` pushed, high byte first, and control gone elsewhere. -/
def PushedReturnAddress (n : Nat) (s t : State) : Prop :=
  t.sp = s.sp - 2#16 ∧
  (t.stack.get (s.sp.toNat - 1)).toNat = (s.pc.toNat + n) / 256 ∧
  (t.stack.get (s.sp.toNat - 2)).toNat = (s.pc.toNat + n) % 256 ∧
  (∀ a : Nat, a ≠ s.sp.toNat - 1 → a ≠ s.sp.toNat - 2 → t.stack.get a = s.stack.get a) ∧
  t.stack.size = s.stack.size ∧
  t = { s with pc := t.pc, sp := t.sp, stack := t.stack }

theorem pushedReturnAddress_of_fits {n : Nat} {s : State} (target : Word) (hwf : s.stack.wf = true)
    (hpc : s.pc.toNat + n ≤ 0xFFFF) (h2 : 2 ≤ s.sp.toNat) (hs : s.sp.toNat ≤ s.stack.size) :
    PushedReturnAddress n s { pushed16 (BitVec.ofNat 16 (s.pc.toNat + n)) s with pc := target } := by
  have hret : (BitVec.ofNat 16 (s.pc.toNat + n)).toNat = s.pc.toNat + n := by
    rw [BitVec.toNat_ofNat]
    omega
  refine ⟨pushed16_sp h2, ?_, ?_, fun a h1 h2 => pushed16_stack_get_other h1 h2, pushed16_stack_size _ s, rfl⟩
  · rw [pushed16_stack_get hwf h2 hs, if_neg (by omega), if_pos rfl, hiByte_toNat, hret]
  · rw [pushed16_stack_get hwf h2 hs, if_pos rfl, loByte_toNat, hret]

end Machine

/-! ## Calls in a run (R25, R32) -/

namespace Safety

open Machine

theorem initial_sp_toNat {p : Params} (h : p.wf = true) : (State.initial p).sp.toNat = p.stackSize := by
  obtain ⟨-, -, hstack, -, -⟩ := (Params.wf_iff p).1 h
  exact Nat.mod_eq_of_lt (by omega)

/-- Every retired call has taken two bytes of the Stack, and nothing gives them back. -/
theorem two_mul_calls_add_sp_of_retired {p : Params} {tr : List Instr} {s : State} (h : Retired p tr s) :
    2 * tr.countP isCall + s.sp.toNat = p.stackSize := by
  induction h with
  | start hs =>
    obtain ⟨hwf, rfl⟩ := (construct_ok_iff p _).1 hs
    rw [List.countP_nil, Nat.mul_zero, Nat.zero_add, initial_sp_toNat hwf]
  | step _ hfetched hstep hrun ih =>
    have htwo := Proofs.retiringStepTakesTwoStackBytesPerCall _ _ _ hfetched hstep hrun
    rw [List.countP_append, List.countP_singleton]
    omega

end Safety

end Sys2Proof

/-! ## The obligations -/

namespace Sys2Proof.Proofs

open Sys2Proof.Machine Sys2Proof.Safety

/-- Settles O17: the return address fits, both pushes fit and both operand bytes are inside Memory: the call retires. -/
theorem callPushesReturnAddress : Obligations.CallPushesReturnAddress := by
  intro nn s hwf hpc h2 hs hmem
  exact ⟨_, exec_of_haltCause_eq_none (haltCause_callNn_eq_none hpc h2 hs hmem), rfl,
    pushedReturnAddress_of_fits nn hwf hpc h2 hs⟩

/-- Settles O18: as for the call, without operand bytes and with the decided vector as target. -/
theorem restartPushesReturnAddress : Obligations.RestartPushesReturnAddress := by
  intro s hwf hpc h2 hs
  exact ⟨_, exec_of_haltCause_eq_none (haltCause_rst38_eq_none hpc h2 hs), rfl,
    pushedReturnAddress_of_fits rstVector hwf hpc h2 hs⟩

/-- Settles O19: `B` after the decrement is zero exactly when it was 1, which decides the target and whether the offset
byte is read. -/
theorem decrementAndJumpIfNonzero : Obligations.DecrementAndJumpIfNonzero := by
  refine ⟨fun e s hb hmem hpc => ?_, fun e s hb hpc => ?_⟩
  · have hcause : haltCause (.djnzE e) s = none := haltCause_djnzE_eq_none_of_taken hb hmem (by omega)
    refine ⟨_, exec_of_haltCause_eq_none hcause, dec8_toNat s.b, ?_, rfl⟩
    rw [retired_pc_toNat hcause, netPc, if_neg hb]
  · have hcause : haltCause (.djnzE e) s = none := (if_pos hb).trans (pcCause_next hpc)
    have hzero : dec8 s.b = 0#8 := (dec8_eq_zero_iff s.b).2 hb
    rw [exec_of_haltCause_eq_none hcause, ← ofNat_toNat_add, retired, retiredFor, hzero, if_neg (not_not.2 rfl)]

/-- Settles O53: the count of R32 holds at construction and every retiring step keeps it, by O55. -/
theorem callsAreBoundedByStackSize : Obligations.CallsAreBoundedByStackSize := by
  intro p tr s h
  have hcount := two_mul_calls_add_sp_of_retired h
  exact ⟨hcount, by omega⟩

/-- Settles O14: the only halt cause is `pc` past its range. -/
theorem nopOnlyAdvancesPc : Obligations.NopOnlyAdvancesPc := by
  intro s hpc
  rw [exec_of_haltCause_eq_none (i := .nop) (pcCause_next hpc), ← ofNat_toNat_add, retired, retiredFor]

/-- Settles O16: without a halt cause the jump retires, and otherwise it halts with the first operand outside Memory. -/
theorem jumpSetsPc : Obligations.JumpSetsPc := by
  refine ⟨fun nn s h => ?_, fun nn s h => ?_, fun nn s h => ?_⟩
  · exact exec_of_haltCause_eq_none (haltCause_jpNn_eq_none h)
  · exact exec_of_haltCause_eq_some (haltCause_jpNn_first_operand h)
  · exact exec_of_haltCause_eq_some (haltCause_jpNn_second_operand h)

/-- Settles O20: the placeholder retires as `NOP` does. -/
theorem conditionalReturnHasNoEffect : Obligations.ConditionalReturnHasNoEffect := by
  intro s hpc
  rw [exec_of_haltCause_eq_none (i := .retPe) (pcCause_next hpc), ← ofNat_toNat_add, retired, retiredFor]

end Sys2Proof.Proofs

/-! # Proofs: loads (spec/42_load.md)

Neither load has a halt cause where its obligation's premises hold, so each ends in `retired`, which is the state the
obligation writes out. -/

namespace Sys2Proof.Machine

open Sys2Proof.Safety

/-- The skipped bytes are not among the causes: only the address in `BC` and the advance are tested (R140, R186). -/
theorem haltCause_ldABc_eq_none {x1 x2 : Byte} {s : State} (hmem : s.b.toNat * 256 + s.c.toNat < s.mem.size)
    (hpc : s.pc.toNat + 3 ≤ 0xFFFF) : haltCause (.ldABc x1 x2) s = none := by
  have haddr : s.mem.inBounds ((s.b.toNat : Int) * 256 + s.c.toNat) := ⟨by omega, by omega⟩
  simp only [haltCause, memCause_next haddr, pcCause_next hpc, firstCause]

theorem haltCause_ldHlNn_eq_none {hh ll : Byte} {s : State} (hmem : s.pc.toNat + 2 < s.mem.size)
    (hpc : s.pc.toNat + 3 ≤ 0xFFFF) : haltCause (.ldHlNn hh ll) s = none := by
  obtain ⟨hop1, hop2⟩ := inBounds_operands hmem
  simp only [haltCause, memCause_next hop1, memCause_next hop2, pcCause_next hpc, firstCause]

end Sys2Proof.Machine

/-! ## The obligations -/

namespace Sys2Proof.Proofs

open Sys2Proof.Machine

/-- Settles O21: the load retires, and the word in `BC` is the address `B * 256 + C` (R22). -/
theorem loadAccumulatorFromBc : Obligations.LoadAccumulatorFromBc := by
  intro x1 x2 s hmem hpc
  rw [exec_of_haltCause_eq_none (haltCause_ldABc_eq_none hmem hpc), ← ofNat_toNat_add, retired, retiredFor,
    pairWord_toNat]

/-- Settles O22: with both operand bytes inside Memory and `pc` in range the load retires. -/
theorem loadHlImmediate : Obligations.LoadHlImmediate := by
  intro hh ll s hmem hpc
  rw [exec_of_haltCause_eq_none (haltCause_ldHlNn_eq_none hmem hpc), ← ofNat_toNat_add, retired, retiredFor]

end Sys2Proof.Proofs

/-! # Proofs: the 8-bit ALU (spec/43_alu8.md)

The laws of the ALU functions come first (R154 to R156), then what the write-back of a result and four flags leaves (R152,
R153), then the state in which each of the two instructions that write flags retires. The obligations follow from these. -/

namespace Sys2Proof.Machine

open Sys2Proof.Safety

/-! ## The ALU functions (R154 to R156) -/

theorem inc8_toNat (v : Byte) : (inc8 v).toNat = (v.toNat + 1) % 256 := BitVec.toNat_ofNat _ _

theorem sub8_r_toNat (a n : Byte) : ((sub8 a n).r.toNat : Int) = ((a.toNat : Int) - n.toNat) % 256 := by
  rw [sub8, BitVec.toNat_ofInt]
  omega

theorem sub8_z_iff (a n : Byte) : (sub8 a n).z = true ↔ (sub8 a n).r = 0#8 := decide_eq_true_iff

theorem sub8_z_iff_eq (a n : Byte) : (sub8 a n).z = true ↔ a = n := by
  have hr := sub8_r_toNat a n
  have ha := a.isLt
  have hn := n.isLt
  rw [sub8_z_iff, ← BitVec.toNat_inj, ← BitVec.toNat_inj, BitVec.toNat_zero]
  omega

theorem sub8_h_iff (a n : Byte) : (sub8 a n).h = true ↔ a.toNat % 16 < n.toNat % 16 := by
  rw [sub8, decide_eq_true_iff, lowNibble_eq, lowNibble_eq]

theorem sub8_c_iff (a n : Byte) : (sub8 a n).c = true ↔ a.toNat < n.toNat := decide_eq_true_iff

theorem add8_r_toNat (a m : Byte) : (add8 a m).r.toNat = (a.toNat + m.toNat) % 256 := BitVec.toNat_ofNat _ _

theorem add8_z_iff (a m : Byte) : (add8 a m).z = true ↔ (add8 a m).r = 0#8 := decide_eq_true_iff

/-- The two sums that wrap to 0: two bytes add up to less than 512. -/
theorem add8_z_iff_sum (a m : Byte) : (add8 a m).z = true ↔ a.toNat + m.toNat = 0 ∨ a.toNat + m.toNat = 256 := by
  have ha := a.isLt
  have hm := m.isLt
  rw [add8_z_iff, ← BitVec.toNat_inj, add8_r_toNat, BitVec.toNat_zero]
  omega

theorem add8_h_iff (a m : Byte) : (add8 a m).h = true ↔ a.toNat % 16 + m.toNat % 16 > 0xF := by
  rw [add8, decide_eq_true_iff, lowNibble_eq, lowNibble_eq]

theorem add8_c_iff (a m : Byte) : (add8 a m).c = true ↔ a.toNat + m.toNat > 0xFF := decide_eq_true_iff

/-! ## The write-back of a result and four flags (R27, R152, R153) -/

/-- The value that the write-back of `x` gives a flag; `n` is the negate flag. -/
def Alu8.flag (x : Alu8) (n : Bool) : Flag → Bool
  | .z => x.z
  | .n => n
  | .h => x.h
  | .c => x.c

/-- The four writes go to four masks, so each flag reads back its own. -/
theorem State.flag_writeAlu8 (s : State) (x : Alu8) (n : Bool) (k : Flag) :
    (s.writeAlu8 flagLayout x n).flag k = x.flag n k := by
  rw [State.flag_eq, State.writeAlu8_eq]
  cases k <;> simp [Alu8.flag]

theorem State.writeAlu8_f_and_unusedBits (L : FlagLayout) (s : State) (x : Alu8) (n : Bool) :
    (s.writeAlu8 L x n).f &&& unusedBits L = s.f &&& unusedBits L := by
  simp only [State.writeAlu8_eq, setFlagBit_and_unusedBits]

@[simp] theorem State.setPc_flag (s : State) (w : Word) (k : Flag) : (s.setPc w).flag k = s.flag k := rfl

/-! ## How the two instructions that write flags retire (R152, R153) -/

theorem haltCause_subN_eq_none {n : Byte} {s : State} (hmem : s.pc.toNat + 1 < s.mem.size)
    (hpc : s.pc.toNat + 2 ≤ 0xFFFF) : haltCause (.subN n) s = none := by
  have hop : s.mem.inBounds ((s.pc.toNat : Int) + 1) := ⟨by omega, by omega⟩
  simp only [haltCause, memCause_next hop, pcCause_next hpc, firstCause]

theorem haltCause_addAHl_eq_none {s : State} (hmem : s.h.toNat * 256 + s.l.toNat < s.mem.size)
    (hpc : s.pc.toNat + 1 ≤ 0xFFFF) : haltCause .addAHl s = none := by
  have haddr : s.mem.inBounds ((s.h.toNat : Int) * 256 + s.l.toNat) := ⟨by omega, by omega⟩
  simp only [haltCause, memCause_next haddr, pcCause_next hpc, firstCause]

theorem exec_subN_next {n : Byte} {s : State} (hmem : s.pc.toNat + 1 < s.mem.size) (hpc : s.pc.toNat + 2 ≤ 0xFFFF) :
    exec (.subN n) s = .next ((s.writeAlu8 flagLayout (sub8 s.a n) true).setPc (s.pc + 2#16)) := by
  rw [exec_of_haltCause_eq_none (haltCause_subN_eq_none hmem hpc), ← ofNat_toNat_add]
  rfl

/-- The word in `HL` is the address `H * 256 + L` (R22). -/
theorem exec_addAHl_next {s : State} (hmem : s.h.toNat * 256 + s.l.toNat < s.mem.size)
    (hpc : s.pc.toNat + 1 ≤ 0xFFFF) :
    exec .addAHl s =
      .next ((s.writeAlu8 flagLayout (add8 s.a (s.mem.get (s.h.toNat * 256 + s.l.toNat))) false).setPc
        (s.pc + 1#16)) := by
  rw [exec_of_haltCause_eq_none (haltCause_addAHl_eq_none hmem hpc), ← ofNat_toNat_add, ← pairWord_toNat]
  rfl

end Sys2Proof.Machine

/-! ## The obligations -/

namespace Sys2Proof.Proofs

open Sys2Proof.Machine

/-- Settles O25: the operand is inside Memory and `pc` in range, so the difference and its flags are written back; each
flag reads as the subtracter's output. -/
theorem subtractImmediate : Obligations.SubtractImmediate := by
  intro n s hmem hpc
  refine ⟨_, exec_subN_next hmem hpc, sub8_r_toNat s.a n, ?_, ?_, ?_, ?_, ?_, rfl⟩
  · rw [State.setPc_flag, State.flag_writeAlu8]
    exact sub8_z_iff s.a n
  · rw [State.setPc_flag, State.flag_writeAlu8, Alu8.flag]
  · rw [State.setPc_flag, State.flag_writeAlu8]
    exact sub8_h_iff s.a n
  · rw [State.setPc_flag, State.flag_writeAlu8]
    exact sub8_c_iff s.a n
  · exact State.writeAlu8_f_and_unusedBits flagLayout s _ true

/-- Settles O26: the byte at `HL` is inside Memory and `pc` in range, so the sum and its flags are written back; each flag
reads as the adder's output. -/
theorem addMemoryToAccumulator : Obligations.AddMemoryToAccumulator := by
  intro s hmem hpc
  refine ⟨_, exec_addAHl_next hmem hpc, add8_r_toNat s.a _, ?_, ?_, ?_, ?_, ?_, rfl⟩
  · rw [State.setPc_flag, State.flag_writeAlu8]
    exact add8_z_iff s.a _
  · rw [State.setPc_flag, State.flag_writeAlu8, Alu8.flag]
  · rw [State.setPc_flag, State.flag_writeAlu8]
    exact add8_h_iff s.a _
  · rw [State.setPc_flag, State.flag_writeAlu8]
    exact add8_c_iff s.a _
  · exact State.writeAlu8_f_and_unusedBits flagLayout s _ false

/-- Settles O23: the only halt cause is `pc` past its range, and retirement writes `B` and `pc` alone. -/
theorem incrementB : Obligations.IncrementB := by
  intro s hpc
  refine ⟨_, exec_of_haltCause_eq_none (i := .incB) (pcCause_next hpc), inc8_toNat s.b, ?_⟩
  rw [← ofNat_toNat_add, retired, retiredFor]

/-- Settles O24: as for the increment, with `A` written and every bit of it the OR of two bits. -/
theorem orBIntoAccumulator : Obligations.OrBIntoAccumulator := by
  intro s hpc
  refine ⟨_, exec_of_haltCause_eq_none (i := .orB) (pcCause_next hpc), fun _ => BitVec.getLsbD_or, ?_⟩
  rw [← ofNat_toNat_add, retired, retiredFor]

/-- Settles O28: the sum wraps only at 255. -/
theorem inc8Laws : Obligations.Inc8Laws := by
  intro v
  refine ⟨inc8_toNat v, ?_, fun hv => ?_⟩
  · rintro rfl
    rfl
  · rw [inc8_toNat, Nat.mod_eq_of_lt (by omega)]

/-- Settles O29: without a borrow the result is the difference itself, and with one it is the difference plus 256. -/
theorem sub8Laws : Obligations.Sub8Laws := by
  intro a n
  have hr := sub8_r_toNat a n
  have ha := a.isLt
  have hn := n.isLt
  exact ⟨hr, fun hle => by omega, fun hlt => by omega, sub8_z_iff a n, sub8_z_iff_eq a n, sub8_h_iff a n, sub8_c_iff a n⟩

/-- Settles O30: the sum of two bytes is reduced modulo 256, and each flag is a comparison of unreduced numbers. -/
theorem add8Laws : Obligations.Add8Laws := fun a m =>
  ⟨add8_r_toNat a m, add8_z_iff a m, add8_z_iff_sum a m, add8_h_iff a m, add8_c_iff a m⟩

end Sys2Proof.Proofs

/-! # Proofs: the 16-bit ALU (spec/44_alu16.md)

The laws of the doubling come first (R171), then what the write-back of a word and three flags leaves (R170), then the
state in which `ADD HL,HL` retires. The obligations follow from these. -/

namespace Sys2Proof.Machine

open Sys2Proof.Safety

/-! ## The doubling (R171) -/

theorem dbl16_r_toNat (v : Word) : (dbl16 v).r.toNat = (2 * v.toNat) % 65536 := BitVec.toNat_ofNat _ _

theorem dbl16_r_eq_shiftLeft (v : Word) : (dbl16 v).r = v <<< 1 := by
  rw [← BitVec.toNat_inj, dbl16_r_toNat, BitVec.toNat_shiftLeft, Nat.shiftLeft_eq, Nat.mul_comm]

theorem dbl16_z_iff (v : Word) : (dbl16 v).z = true ↔ (dbl16 v).r = 0#16 := decide_eq_true_iff

/-- The two doubles that wrap to 0: twice a word is less than `2 * 65536`. -/
theorem dbl16_z_iff_eq (v : Word) : (dbl16 v).z = true ↔ v = 0x0000#16 ∨ v = 0x8000#16 := by
  have hv := v.isLt
  rw [dbl16_z_iff, ← BitVec.toNat_inj, ← BitVec.toNat_inj, ← BitVec.toNat_inj, dbl16_r_toNat, BitVec.toNat_zero,
    BitVec.toNat_ofNat]
  omega

theorem dbl16_h_iff (v : Word) : (dbl16 v).h = true ↔ 2 * (v.toNat % 4096) > 0x0FFF := by
  have hlow : (v &&& 0x0FFF#16).toNat = v.toNat % 4096 := Nat.and_two_pow_sub_one_eq_mod v.toNat 12
  rw [dbl16, decide_eq_true_iff, hlow]

theorem dbl16_c_iff (v : Word) : (dbl16 v).c = true ↔ 2 * v.toNat > 0xFFFF := decide_eq_true_iff

/-- A bit of a word, as the parity of a quotient. -/
theorem getLsbD_eq_true_iff (v : Word) (i : Nat) : v.getLsbD i = true ↔ v.toNat / 2 ^ i % 2 = 1 := by
  rw [BitVec.getLsbD, Nat.testBit_eq_decide_div_mod_eq, decide_eq_true_iff]

/-- The carry out of bit 11 is bit 11 (decision D11). -/
theorem dbl16_h_eq_bit (v : Word) : (dbl16 v).h = v.getLsbD 11 := by
  rw [Bool.eq_iff_iff, dbl16_h_iff, getLsbD_eq_true_iff]
  omega

theorem dbl16_c_eq_bit (v : Word) : (dbl16 v).c = v.getLsbD 15 := by
  have hv := v.isLt
  rw [Bool.eq_iff_iff, dbl16_c_iff, getLsbD_eq_true_iff]
  omega

/-! ## The write-back of a word and three flags (R27, R170) -/

/-- The value of a flag after the write-back of `x`; N is not written, and `n` is its value before (decision D12). -/
def Alu16.flag (x : Alu16) (n : Bool) : Flag → Bool
  | .z => x.z
  | .n => n
  | .h => x.h
  | .c => x.c

/-- The three writes go to three masks, none of them N's. -/
theorem State.flag_writeAlu16 (s : State) (x : Alu16) (k : Flag) :
    (s.writeAlu16 flagLayout x).flag k = x.flag (s.flag .n) k := by
  rw [State.flag_eq, State.flag_eq, State.writeAlu16_eq]
  cases k <;> simp [Alu16.flag]

theorem State.writeAlu16_f_and_unusedBits (L : FlagLayout) (s : State) (x : Alu16) :
    (s.writeAlu16 L x).f &&& unusedBits L = s.f &&& unusedBits L := by
  simp only [State.writeAlu16_eq, setFlagBit_and_unusedBits]

@[simp] theorem State.setPc_f (s : State) (w : Word) : (s.setPc w).f = s.f := rfl
@[simp] theorem State.setPc_h (s : State) (w : Word) : (s.setPc w).h = s.h := rfl
@[simp] theorem State.setPc_l (s : State) (w : Word) : (s.setPc w).l = s.l := rfl

/-- The bytes written to `H` and `L` are the digits of the word in base 256 (R22). -/
theorem State.writeAlu16_hl_toNat (L : FlagLayout) (s : State) (x : Alu16) :
    (s.writeAlu16 L x).h.toNat * 256 + (s.writeAlu16 L x).l.toNat = x.r.toNat := by
  rw [← pairWord_toNat, State.writeAlu16_eq, pairWord_hi_lo]

theorem State.setPc_writeAlu16_frame (L : FlagLayout) (s : State) (x : Alu16) (w : Word) :
    let t := (s.writeAlu16 L x).setPc w
    t = { s with h := t.h, l := t.l, f := t.f, pc := w } := by
  simp only [State.writeAlu16_eq, State.setPc]

theorem eq_zero_iff_hiByte_loByte (w : Word) : w = 0#16 ↔ hiByte w = 0#8 ∧ loByte w = 0#8 := by
  rw [← BitVec.toNat_inj, ← BitVec.toNat_inj, ← BitVec.toNat_inj, hiByte_toNat, loByte_toNat, BitVec.toNat_zero,
    BitVec.toNat_zero]
  omega

/-! ## How the doubling retires (R170) -/

theorem exec_addHlHl_next {s : State} (hpc : s.pc.toNat + 1 ≤ 0xFFFF) :
    exec .addHlHl s = .next ((s.writeAlu16 flagLayout (dbl16 (pairWord s.h s.l))).setPc (s.pc + 1#16)) := by
  rw [exec_of_haltCause_eq_none (i := .addHlHl) (pcCause_next hpc), ← ofNat_toNat_add, retired, retiredFor,
    State.writeAlu16_eq]
  rfl

end Sys2Proof.Machine

/-! ## The obligations -/

namespace Sys2Proof.Proofs

open Sys2Proof.Machine

/-- Settles O27: with `pc` in range the double of the word in `HL` and its flags are written back; each flag reads as the
doubling's output, and N as before. -/
theorem doubleHl : Obligations.DoubleHl := by
  intro s hpc v
  have hv : (pairWord s.h s.l).toNat = v := pairWord_toNat s.h s.l
  refine ⟨_, exec_addHlHl_next hpc, ?_, ?_, ?_, ?_, ?_, ?_, State.setPc_writeAlu16_frame flagLayout s _ _⟩
  · rw [State.setPc_h, State.setPc_l, State.writeAlu16_hl_toNat, dbl16_r_toNat, hv, Nat.two_mul]
  · rw [State.setPc_flag, State.flag_writeAlu16, Alu16.flag, dbl16_z_iff, eq_zero_iff_hiByte_loByte, State.setPc_h,
      State.setPc_l, State.writeAlu16_eq]
  · rw [State.setPc_flag, State.flag_writeAlu16, Alu16.flag]
  · rw [State.setPc_flag, State.flag_writeAlu16, Alu16.flag, dbl16_h_iff, hv, Nat.two_mul]
  · rw [State.setPc_flag, State.flag_writeAlu16, Alu16.flag, dbl16_c_iff, hv, Nat.two_mul]
  · rw [State.setPc_f, State.writeAlu16_f_and_unusedBits]

/-- Settles O31: the double is reduced modulo 65536, and each flag is a comparison of unreduced numbers that one bit of the
word decides. -/
theorem dbl16Laws : Obligations.Dbl16Laws := fun v =>
  ⟨dbl16_r_toNat v, dbl16_r_eq_shiftLeft v, dbl16_z_iff v, dbl16_z_iff_eq v, dbl16_h_iff v, dbl16_h_eq_bit v,
    dbl16_c_iff v, dbl16_c_eq_bit v⟩

end Sys2Proof.Proofs

/-! # Proofs: exceptions (spec/60_exceptions.md)

Five instructions have the advance of `pc` by 1 as their only test (R186), and at 0xFFFF that test fails (R183).
Construction tests its parameters against the ranges of R4 and nothing else (R197). -/

namespace Sys2Proof.Machine

open Sys2Proof.Safety

/-! ## The advance at the top of the 16-bit range (R183, R186) -/

theorem haltCause_eq_pcCause_one {i : Instr} (hi : i ∈ [Instr.nop, .incB, .orB, .addHlHl, .retPe]) (s : State) :
    haltCause i s = pcCause 1 s := by
  simp only [List.mem_cons, List.not_mem_nil, or_false] at hi
  rcases hi with rfl | rfl | rfl | rfl | rfl <;> rfl

theorem pcCause_one_at_top {s : State} (hpc : s.pc = 0xFFFF#16) : pcCause 1 s = some (.pcOutOfRange 0x10000) := by
  have htop : s.pc.toNat = 0xFFFF := congrArg BitVec.toNat hpc
  rw [pcCause_raise (by omega), htop]

end Sys2Proof.Machine

/-! ## The obligations -/

namespace Sys2Proof.Proofs

open Sys2Proof.Machine

/-- Settles O15: the advance is the only test of each of the five, and it is the halt cause at 0xFFFF. -/
theorem oneByteInstructionsHaltAtTheTop : Obligations.OneByteInstructionsHaltAtTheTop := by
  intro s _ hpc i hi
  exact exec_of_haltCause_eq_some ((haltCause_eq_pcCause_one hi s).trans (pcCause_one_at_top hpc))

/-- Settles O47: construction is refused exactly when `Params.wf` fails, which is one of R4's ranges failing. -/
theorem constructionRefusesMalformedParameters : Obligations.ConstructionRefusesMalformedParameters := fun p =>
  (construct_refused_iff p).trans (Params.not_wf_iff p)

end Sys2Proof.Proofs

/-! # Proofs: the reset state as a construction (spec/70_reset_and_hazards.md)

Construction (R210) with the parameters the model chose: they are in the ranges of R4, so R197 does not refuse them. -/

namespace Sys2Proof

theorem Config.params_wf : Config.params.wf = true :=
  (Params.wf_iff Config.params).2 (by decide)

end Sys2Proof

namespace Sys2Proof.Machine

/-- An empty image places no byte, so Memory and the Stack list no cell. -/
theorem State.initial_params : State.initial Config.params = State.reset := rfl

end Sys2Proof.Machine

/-! ## The obligation -/

namespace Sys2Proof.Proofs

open Sys2Proof.Machine

/-- Settles O48: construction accepts the chosen parameters, and the state of R210 for them is `State.reset`. -/
theorem resetIsAConstruction : Obligations.ResetIsAConstruction :=
  (construct_ok_iff Config.params State.reset).2 ⟨Config.params_wf, State.initial_params⟩

end Sys2Proof.Proofs
